-- ==== Sys2Proof/Word.lean ====
section
/-! DEFINITION. Sys2Proof/Word.lean: the widths of spec/00_scope.md R7 and R15. -/

namespace Sys2Proof

/-- A 64-bit word: the engine's output, the operand field, a binary64 pattern (R7). -/
abbrev Word := BitVec 64

/-- The derived short word of 32 bits (R7). -/
abbrev Half := BitVec 32

/-- One byte of `IMG` and of the byte stream. -/
abbrev Byte := BitVec 8

/-- A command word, 72 bits (R15, 30_encoding.md R80). -/
abbrev Command := BitVec 72

/-- A response word, 68 bits (R15, 30_encoding.md R85). -/
abbrev Response := BitVec 68

end Sys2Proof
end

