-- ==== Sys2Proof/Syntax.lean ====
section
/-! DEFINITION. Sys2Proof/Syntax.lean: the fifteen commands of spec/30_encoding.md R83, one constructor
per row of spec/opcode_table.json, each with the operand its format gives it (R81). -/

namespace Sys2Proof

/-- A command with its operands pulled out of the operand field. -/
inductive Instr where
  | seed (w : Word)
  | next64
  | next32
  | unif
  | rdbytes (c : BitVec 4)
  | bound32 (n : Half)
  | bound64 (n : Word)
  | int31n (n : Half)
  | int63n (n : Word)
  | exp
  | norm
  | marshal
  | unmarshal (len : Word)
  | imgrd (a : BitVec 4)
  | imgwr (a : BitVec 4) (b : Byte)
  deriving DecidableEq, Repr

end Sys2Proof
end

