-- ==== Sys2Proof/WellFormed.lean ====
section
/-! DEFINITION. Sys2Proof/WellFormed.lean: which commands the command word can carry. Every operand
has exactly the width of its field, so one check remains: the count of `RDBYTES` (30_encoding.md R81,
R88 (c)). -/

namespace Sys2Proof

/-- The command has a legal command word: `RDBYTES` takes 0 to 8 bytes, every other operand any value. -/
def Instr.wellFormed : Instr → Bool
  | .rdbytes c => c.toNat ≤ 8
  | .seed _ | .next64 | .next32 | .unif => true
  | .bound32 _ | .bound64 _ | .int31n _ | .int63n _ => true
  | .exp | .norm => true
  | .marshal | .unmarshal _ | .imgrd _ | .imgwr _ _ => true

end Sys2Proof
end

