-- ==== Sys2Proof/Decode.lean ====
section
/-! DEFINITION. Sys2Proof/Decode.lean: the decoder and encoder of spec/30_encoding.md R80 to R89. -/

namespace Sys2Proof

/-- Why a command word is illegal, one name per clause of R88. -/
inductive IllegalCause where
  /-- R88 (a): the opcode is not one of the fifteen. -/
  | unknownOpcode
  /-- R88 (b): a bit the format marks must-be-zero is 1. -/
  | mustBeZero
  /-- R88 (c): `RDBYTES` with a count from 9 to 15. -/
  | countAboveEight
  deriving DecidableEq, Repr

/-- What the decoder reads from a word: a command, or the reason there is none (R84, R88). -/
inductive Decoded where
  | command (i : Instr)
  | illegal (why : IllegalCause)
  deriving DecidableEq, Repr

/-- The opcode `cmd[71:64]` (R80). -/
def opField (cmd : Command) : Byte := cmd.extractLsb' 64 8

/-- The operand field `cmd[63:0]` (R80). -/
def argField (cmd : Command) : Word := cmd.extractLsb' 0 64

/-- Format N: the whole operand field must be zero (R81). -/
def decodeN (arg : Word) (i : Instr) : Decoded :=
  if arg = 0#64 then .command i else .illegal .mustBeZero

/-- Format W: the whole operand field is the operand (R81). -/
def decodeW (arg : Word) (f : Word → Instr) : Decoded := .command (f arg)

/-- Format H: `arg[31:0]` is the operand, `arg[63:32]` must be zero (R81). -/
def decodeH (arg : Word) (f : Half → Instr) : Decoded :=
  if arg.extractLsb' 32 32 = 0#32 then .command (f (arg.extractLsb' 0 32)) else .illegal .mustBeZero

/-- Format C: `arg[3:0]` is a count of 0 to 8, `arg[63:4]` must be zero (R81, R88). -/
def decodeC (arg : Word) (f : BitVec 4 → Instr) : Decoded :=
  if arg.extractLsb' 4 60 = 0#60 then
    if (arg.extractLsb' 0 4).toNat ≤ 8 then .command (f (arg.extractLsb' 0 4))
    else .illegal .countAboveEight
  else .illegal .mustBeZero

/-- Format A: `arg[3:0]` is the address, `arg[63:4]` must be zero (R81). -/
def decodeA (arg : Word) (f : BitVec 4 → Instr) : Decoded :=
  if arg.extractLsb' 4 60 = 0#60 then .command (f (arg.extractLsb' 0 4)) else .illegal .mustBeZero

/-- Format B: `arg[3:0]` is the address, `arg[15:8]` the byte, all other bits must be zero (R81). -/
def decodeB (arg : Word) (f : BitVec 4 → Byte → Instr) : Decoded :=
  if arg.extractLsb' 4 4 = 0#4 ∧ arg.extractLsb' 16 48 = 0#48 then
    .command (f (arg.extractLsb' 0 4) (arg.extractLsb' 8 8))
  else .illegal .mustBeZero

/-- Decoding (R84): total, reads the command word alone, the opcode selects the row of R83. -/
def decode (cmd : Command) : Decoded :=
  let op := opField cmd
  let arg := argField cmd
  if op = 0x10#8 then decodeW arg .seed
  else if op = 0x11#8 then decodeN arg .next64
  else if op = 0x12#8 then decodeN arg .next32
  else if op = 0x13#8 then decodeN arg .unif
  else if op = 0x14#8 then decodeC arg .rdbytes
  else if op = 0x20#8 then decodeH arg .bound32
  else if op = 0x21#8 then decodeW arg .bound64
  else if op = 0x22#8 then decodeH arg .int31n
  else if op = 0x23#8 then decodeW arg .int63n
  else if op = 0x30#8 then decodeN arg .exp
  else if op = 0x31#8 then decodeN arg .norm
  else if op = 0x40#8 then decodeN arg .marshal
  else if op = 0x41#8 then decodeW arg .unmarshal
  else if op = 0x42#8 then decodeA arg .imgrd
  else if op = 0x43#8 then decodeB arg .imgwr
  else .illegal .unknownOpcode

/-- The command a word carries, where it carries one. -/
def Decoded.toOption : Decoded → Option Instr
  | .command i => some i
  | .illegal _ => none

/-- The opcode of each command (R83). -/
def Instr.opcode : Instr → Byte
  | .seed _ => 0x10#8
  | .next64 => 0x11#8
  | .next32 => 0x12#8
  | .unif => 0x13#8
  | .rdbytes _ => 0x14#8
  | .bound32 _ => 0x20#8
  | .bound64 _ => 0x21#8
  | .int31n _ => 0x22#8
  | .int63n _ => 0x23#8
  | .exp => 0x30#8
  | .norm => 0x31#8
  | .marshal => 0x40#8
  | .unmarshal _ => 0x41#8
  | .imgrd _ => 0x42#8
  | .imgwr _ _ => 0x43#8

/-- The operand field of each command, every must-be-zero bit 0 (R81). -/
def Instr.arg : Instr → Word
  | .next64 | .next32 | .unif | .exp | .norm | .marshal => 0#64
  | .seed w | .bound64 w | .int63n w | .unmarshal w => w
  | .bound32 h | .int31n h => 0#32 ++ h
  | .rdbytes c => 0#60 ++ c
  | .imgrd a => 0#60 ++ a
  | .imgwr a b => 0#48 ++ (b ++ (0#4 ++ a))

/-- The command word: opcode in bits 71 to 64, operand field in bits 63 to 0 (R80). -/
def encode (i : Instr) : Command := i.opcode ++ i.arg

/-- A row of the opcode map: a word is the row's command when `word & mask = match` (R83). -/
structure Row where
  mask : Command
  pattern : Command
  deriving DecidableEq, Repr

/-- The row of R83 each command belongs to, mask and match as the map prints them. -/
def Instr.row : Instr → Row
  | .seed _ => ⟨0xFF0000000000000000#72, 0x100000000000000000#72⟩
  | .next64 => ⟨0xFFFFFFFFFFFFFFFFFF#72, 0x110000000000000000#72⟩
  | .next32 => ⟨0xFFFFFFFFFFFFFFFFFF#72, 0x120000000000000000#72⟩
  | .unif => ⟨0xFFFFFFFFFFFFFFFFFF#72, 0x130000000000000000#72⟩
  | .rdbytes _ => ⟨0xFFFFFFFFFFFFFFFFF0#72, 0x140000000000000000#72⟩
  | .bound32 _ => ⟨0xFFFFFFFFFF00000000#72, 0x200000000000000000#72⟩
  | .bound64 _ => ⟨0xFF0000000000000000#72, 0x210000000000000000#72⟩
  | .int31n _ => ⟨0xFFFFFFFFFF00000000#72, 0x220000000000000000#72⟩
  | .int63n _ => ⟨0xFF0000000000000000#72, 0x230000000000000000#72⟩
  | .exp => ⟨0xFFFFFFFFFFFFFFFFFF#72, 0x300000000000000000#72⟩
  | .norm => ⟨0xFFFFFFFFFFFFFFFFFF#72, 0x310000000000000000#72⟩
  | .marshal => ⟨0xFFFFFFFFFFFFFFFFFF#72, 0x400000000000000000#72⟩
  | .unmarshal _ => ⟨0xFF0000000000000000#72, 0x410000000000000000#72⟩
  | .imgrd _ => ⟨0xFFFFFFFFFFFFFFFFF0#72, 0x420000000000000000#72⟩
  | .imgwr _ _ => ⟨0xFFFFFFFFFFFFFF00F0#72, 0x430000000000000000#72⟩

/-- The fifteen rows of R83 in the map's order; the operands of the representatives play no part. -/
def opcodeMap : List Row :=
  [Instr.seed 0, .next64, .next32, .unif, .rdbytes 0, .bound32 0, .bound64 0, .int31n 0].map Instr.row
    ++ [Instr.int63n 0, .exp, .norm, .marshal, .unmarshal 0, .imgrd 0, .imgwr 0 0].map Instr.row

/-- The command word matches the row (R83). -/
def Row.matches (r : Row) (cmd : Command) : Bool := cmd &&& r.mask == r.pattern

/-- The command in the low `nbits` bits of `w`, numbered as spec/opcode_table.json numbers them. The
block has one 72-bit word per command and no bytes to order, so bit k of `w` is `cmd[k]`. -/
def decodeTableWord (nbits w : Nat) : Option Instr :=
  if nbits ≤ 72 then (decode (BitVec.ofNat 72 (w % 2 ^ nbits))).toOption else none

end Sys2Proof
end

