-- ==== Sys2Proof/Machine/Binary64.lean ====
section
/-! DEFINITION. Sys2Proof/Machine/Binary64.lean: the floating-point rules of spec/42_ziggurat.md R170 to
R177 and the conversion of 40_bitengine.md R117. A value is its 64-bit pattern; an operation unpacks its
operands exactly, computes exactly on integers, and rounds once. -/

namespace Sys2Proof.Machine

/-- What a pattern stands for: a finite value is `(-1)^neg * m * 2^e`. -/
inductive Unpacked where
  | nan
  | inf (neg : Bool)
  | finite (neg : Bool) (m : Nat) (e : Int)
  deriving DecidableEq, Repr

/-- The one quiet NaN an operation gives (R170). -/
def quietNaN : Word := 0x7FF8000000000000#64

/-- A sign bit above a 63-bit magnitude. -/
def withSign (neg : Bool) (mag : BitVec 63) : Word := BitVec.ofBool neg ++ mag

/-- The magnitude of an infinity: exponent field all ones, fraction 0. -/
def infMag : Nat := 0x7FF * 2 ^ 52

/-- An infinity of either sign. -/
def infinity (neg : Bool) : Word := withSign neg (BitVec.ofNat 63 infMag)

/-- A zero of either sign. -/
def zero (neg : Bool) : Word := withSign neg 0#63

/-- Bits 62 to 0 as an integer; finite patterns of one sign are ordered by it. -/
def magnitude (a : Word) : Nat := (a.extractLsb' 0 63).toNat

/-- The exponent field, bits 62 to 52. -/
def exponentField (a : Word) : Nat := (a.extractLsb' 52 11).toNat

/-- The fraction field, bits 51 to 0. -/
def fractionField (a : Word) : Nat := (a.extractLsb' 0 52).toNat

/-- The pattern is a NaN. -/
def isNaN (a : Word) : Bool := exponentField a == 0x7FF && fractionField a != 0

/-- The format of R170: bias 1023, 52 fraction bits, gradual underflow. -/
def unpack (a : Word) : Unpacked :=
  if exponentField a = 0x7FF then
    if fractionField a = 0 then .inf a.msb else .nan
  else if exponentField a = 0 then .finite a.msb (fractionField a) (-1074)
  else .finite a.msb (2 ^ 52 + fractionField a) ((exponentField a : Int) - 1075)

/-- The exponent k with `2^k <= n / d < 2^(k+1)`, for positive n and d. -/
def floorLog2 (n d : Nat) : Int :=
  let k : Int := (Nat.log2 n : Int) - (Nat.log2 d : Int)
  if d * 2 ^ k.toNat ≤ n * 2 ^ (-k).toNat then k else k - 1

/-- `n / d` to the nearest integer, ties to even, for positive d (R170). -/
def divNearestEven (n d : Nat) : Nat :=
  let q := n / d
  let r := n % d
  if 2 * r > d ∨ (2 * r = d ∧ q % 2 = 1) then q + 1 else q

/-- The exponent of the last place a value of `n / d * 2^e` is rounded at: 53 significant bits, and none
below 2^-1074. -/
def roundExponent (n d : Nat) (e : Int) : Int := max (floorLog2 n d + e - 52) (-1074)

/-- The magnitude nearest `n / d * 2^e`, ties to even, for positive n and d (R170): a significand that
rounds up to 2^53 carries into the exponent field, and what reaches it overflows to infinity. -/
def roundMag (n d : Nat) (e : Int) : Nat :=
  let q := roundExponent n d e
  let sig := divNearestEven (n * 2 ^ (e - q).toNat) (d * 2 ^ (q - e).toNat)
  min ((q + 1074).toNat * 2 ^ 52 + sig) infMag

/-- The binary64 nearest `(-1)^neg * n / d * 2^e` for positive n and d. -/
def round (neg : Bool) (n d : Nat) (e : Int) : Word := withSign neg (BitVec.ofNat 63 (roundMag n d e))

/-- The signed integer `(-1)^neg * m`. -/
def signed (neg : Bool) (m : Nat) : Int := if neg then -(m : Int) else m

/-- The sum of two finite values, exact over their smaller exponent, then rounded; an exact zero is
`+0.0` unless both operands are `-0.0`. PRESUMED from IEEE 754 (log entry 9). -/
def addFinite (s : Bool) (m : Nat) (e : Int) (t : Bool) (n : Nat) (f : Int) : Word :=
  let q := min e f
  let x := signed s (m * 2 ^ (e - q).toNat) + signed t (n * 2 ^ (f - q).toNat)
  if x = 0 then zero (s && t) else round (decide (x < 0)) x.natAbs 1 q

/-- `fadd` (R171). Infinities of opposite sign are an invalid operation. -/
def fadd (a b : Word) : Word :=
  match unpack a, unpack b with
  | .nan, _ => quietNaN
  | _, .nan => quietNaN
  | .inf s, .inf t => if s = t then infinity s else quietNaN
  | .inf s, .finite _ _ _ => infinity s
  | .finite _ _ _, .inf t => infinity t
  | .finite s m e, .finite t n f => addFinite s m e t n f

/-- `fneg` (R172): flips bit 63 and changes no other bit, of a NaN too (log entry 7). -/
def fneg (a : Word) : Word := a ^^^ 0x8000000000000000#64

/-- `fsub` (R171). -/
def fsub (a b : Word) : Word := fadd a (fneg b)

/-- `fmul` (R171). Zero times an infinity is an invalid operation. -/
def fmul (a b : Word) : Word :=
  match unpack a, unpack b with
  | .nan, _ => quietNaN
  | _, .nan => quietNaN
  | .inf s, .inf t => infinity (s ^^ t)
  | .inf s, .finite t n _ => if n = 0 then quietNaN else infinity (s ^^ t)
  | .finite s m _, .inf t => if m = 0 then quietNaN else infinity (s ^^ t)
  | .finite s m e, .finite t n f =>
    if m * n = 0 then zero (s ^^ t) else round (s ^^ t) (m * n) 1 (e + f)

/-- `fdiv` (R171). Zero over zero and infinity over infinity are invalid; a nonzero value over zero is an
infinity. -/
def fdiv (a b : Word) : Word :=
  match unpack a, unpack b with
  | .nan, _ => quietNaN
  | _, .nan => quietNaN
  | .inf _, .inf _ => quietNaN
  | .inf s, .finite t _ _ => infinity (s ^^ t)
  | .finite s _ _, .inf t => zero (s ^^ t)
  | .finite s m e, .finite t n f =>
    if n = 0 then (if m = 0 then quietNaN else infinity (s ^^ t))
    else if m = 0 then zero (s ^^ t)
    else round (s ^^ t) m n (e - f)

/-- `SGN(s, a)` (R172). -/
def sgn (s : Bool) (a : Word) : Word := if s then fneg a else a

/-- Where a pattern that is no NaN stands in the order of values; both zeros stand at 0. -/
def orderKey (a : Word) : Int := signed a.msb (magnitude a)

/-- `flt` (R173): false when either is a NaN. -/
def flt (a b : Word) : Bool := !isNaN a && !isNaN b && decide (orderKey a < orderKey b)

/-- `fge` (R173): false when either is a NaN. -/
def fge (a b : Word) : Bool := !isNaN a && !isNaN b && decide (orderKey b ≤ orderKey a)

/-- The binary64 value `m * 2^e`, where it is exact (00_scope.md R17 calls the case e = 0
`u64_to_f64_exact`). -/
def ofScaled (m : Nat) (e : Int) : Word := if m = 0 then zero false else round false m 1 e

/-- `u32_to_f64` (R174). -/
def u32ToF64 (j : Half) : Word := ofScaled j.toNat 0

/-- `U_HALF(v) = (v >> 11) * 2^-53` (40_bitengine.md R117). -/
def uHalf (v : Word) : Word := ofScaled (v >>> 11).toNat (-53)

/-- `U_OPEN(v) = (2 * (v >> 12) + 1) * 2^-53` (R177). -/
def uOpen (v : Word) : Word := ofScaled (2 * (v >>> 12).toNat + 1) (-53)

/-- `1.0` (R176). -/
def one : Word := 0x3FF0000000000000#64

/-- `NEG_HALF = -0.5` (R176). -/
def negHalf : Word := 0xBFE0000000000000#64

/-- `RE`, the exponential base-strip coordinate (00_scope.md R13, R176). -/
def baseStripExp : Word := 0x401EC9D9297EBB83#64

end Sys2Proof.Machine
end

