-- ==== Sys2Proof/Machine/Generator.lean ====
section
/-! DEFINITION. Sys2Proof/Machine/Generator.lean: the bit generator of spec/40_bitengine.md R111 and
R112, as functions of words. -/

namespace Sys2Proof.Machine

/-- The increment of the state update (00_scope.md R10). -/
def gamma : Word := 0x9E3779B97F4A7C15#64

/-- The first multiplier of the output function (R10). -/
def mix1 : Word := 0xBF58476D1CE4E5B9#64

/-- The second multiplier of the output function (R10). -/
def mix2 : Word := 0x94D049BB133111EB#64

/-- The state update (R111). The constant stands first, here and in `mix`: an open sum or product with a
large literal on its right unfolds without end when two states are compared. -/
def advance (s : Word) : Word := gamma + s

/-- `z ^ (z >> k)`, the shape of every xor step of R112. -/
def xorShift (k : Nat) (z : Word) : Word := z ^^^ (z >>> k)

/-- The output function (R112). -/
def mix (z : Word) : Word := xorShift 31 (mix2 * xorShift 27 (mix1 * xorShift 30 z))

end Sys2Proof.Machine
end

