-- ==== Sys2Proof/Machine/State.lean ====
section
/-! DEFINITION. Sys2Proof/Machine/State.lean: the state of spec/10_state.md, the reasons a step can
stop, and the state after reset (R34). -/

namespace Sys2Proof.Machine

/-- The state-image buffer `IMG` (20_memory.md R50): (address, byte) pairs, addresses strictly rising,
no entry holding 0. An unlisted address reads as 0, the reset content of every byte (R34). -/
abbrev Memory := List Host.Cell

/-- The status kinds of 30_encoding.md R86. Values 6 to 15 are reserved and have no name. -/
inductive Status where
  | ok
  | invalidArgument
  | invalidFormat
  /-- Never raised by this hardware (60_exceptions.md R235). -/
  | invalidSeed
  | notSeeded
  | illegalCommand
  deriving DecidableEq, Repr

/-- Where the sequencer stands in the command it runs, with the latches that hold a value there
(10_state.md R30, 70_reset_and_hazards.md R270). Dead while `BUSY = 0`. -/
inductive Position where
  /-- At the head: nothing of the command is carried over (just accepted, or a Ziggurat loop about to
  draw a fresh raw word, 42_ziggurat.md R180). -/
  | start
  /-- In the redraw loop of a 32-bit bounded draw, with the threshold computed. -/
  | redraw32 (thr : Half)
  /-- In the redraw loop of a 64-bit bounded draw, with the threshold computed. -/
  | redraw64 (thr : Word)
  /-- In the tail loop of `NORM`, with the sign bit of the iteration. -/
  | tail (sign : Bool)
  deriving DecidableEq, Repr

/-- What the host or the platform does next (70_reset_and_hazards.md R265, R271). -/
inductive Event where
  /-- The host offers a command word; it is held while `BUSY = 1` (R267). -/
  | command (w : Command)
  /-- The platform applies reset (R260). -/
  | reset
  /-- The host reads `BUSY`, which has no effect; one pass of the sequencer goes by meanwhile. -/
  | readBusy
  /-- The host reads `BUSY` until it falls (30_encoding.md R102). -/
  | waitIdle
  /-- The host reads `RSP` (R271). -/
  | readRsp
  deriving DecidableEq, Repr

/-- All state of the block, under the names of spec/10_state.md, and below it the host side. -/
structure State where
  /-- The generator state (R22). -/
  S : Word
  /-- `S` holds a value (R23). -/
  SEEDED : Bool
  /-- The byte residue, next byte lowest (R24). -/
  RDVAL : Word
  /-- The number of unread bytes in `RDVAL` (R25). -/
  RDPOS : BitVec 4
  /-- A command is running (R26). -/
  BUSY : Bool
  /-- The response of the last command that ended (R27). -/
  RSP : Response
  /-- The state-image buffer (R28). -/
  IMG : Memory
  /-- The accepted command word (R30, 70_reset_and_hazards.md R267). -/
  latch : Command
  /-- The sequencer's position in the command (R30). -/
  pos : Position
  /-- MODEL'S OWN: a command has ended since reset, so that `RSP` holds a response (70_reset_and_hazards.md
  R271). No step depends on it. -/
  ended : Bool
  /-- MODEL'S OWN: what the host and the platform do next, oldest first. -/
  events : List Event
  deriving DecidableEq, Repr

/-- Why the machine stops. No command raises one: every error of a command is a response status. -/
inductive Fault where
  /-- Raised by a host read of `RSP` while `BUSY = 1`: the host must not read it (70_reset_and_hazards.md
  R271), and of the treatments the spec allows it calls `fault` the better (93_implementation_defined.md
  U4; DESIGN CHOICE, log entry 8). Safe. -/
  | rspReadWhileBusy
  deriving DecidableEq, Repr

/-- Why a command has no meaning. No arm of `exec` answers so: every command has its meaning. -/
inductive Refusal where
  /-- Raised by an arm of `exec` for a command not modelled yet. Safe. -/
  | notModelled (mnemonic : String)
  deriving DecidableEq, Repr

/-- What one step answers. -/
abbrev Result := Host.Outcome State Fault Refusal

/-- The state after reset (R34). `S`, `RDVAL` and `RSP` are unspecified there and the latches are dead:
DESIGN CHOICE zero and `start` (log entries 3 and 4); no rule reads them before they are written. -/
def State.reset : State :=
  { S := 0#64, SEEDED := false, RDVAL := 0#64, RDPOS := 0#4, BUSY := false, RSP := 0#68, IMG := [],
    latch := 0#72, pos := .start, ended := false, events := [] }

end Sys2Proof.Machine
end

