-- ==== Sys2Proof/Machine/Ops.lean ====
section
/-! DEFINITION. Sys2Proof/Machine/Ops.lean: the named operations over `IMG` and the registers, the end
of a command with a result or an error, and what the port and the platform do. -/

namespace Sys2Proof.Machine

/-! ## `IMG` (20_memory.md) -/

/-- The byte at an address; an unlisted address holds 0. -/
def byteAt : Memory → Nat → Byte
  | [], _ => 0#8
  | (k, b) :: m, a => if k = a then b else byteAt m a

/-- The memory with one byte replaced, in canonical form: a byte of 0 is not listed. -/
def setByte : Memory → Nat → Byte → Memory
  | [], a, b => if b = 0#8 then [] else [(a, b)]
  | (k, c) :: m, a, b =>
    if a < k then (if b = 0#8 then (k, c) :: m else (a, b) :: (k, c) :: m)
    else if a = k then (if b = 0#8 then m else (a, b) :: m)
    else (k, c) :: setByte m a b

/-- The canonical form from address `lo` on: rising addresses below 16, no zero byte. -/
def wfFrom : Nat → Memory → Bool
  | _, [] => true
  | lo, (k, b) :: m => decide (lo ≤ k) && decide (k < 16) && decide (b ≠ 0#8) && wfFrom (k + 1) m

/-- The memory is in canonical form and lists only the sixteen addresses of R50. -/
def Memory.wf (m : Memory) : Bool := wfFrom 0 m

/-- `MemRead(a, n)` (R52): the byte at the lowest address is the least significant. -/
def memRead (m : Memory) (a : Nat) : Nat → Nat
  | 0 => 0
  | n + 1 => (byteAt m a).toNat + 256 * memRead m (a + 1) n

/-- `MemWrite(a, n, v)` (R53): the least significant byte goes to the lowest address. -/
def memWrite (m : Memory) (a : Nat) : Nat → Nat → Memory
  | 0, _ => m
  | n + 1, v => memWrite (setByte m a (BitVec.ofNat 8 v)) (a + 1) n (v / 256)

/-! ## The response and the end of a command -/

/-- The status numbers of 30_encoding.md R86. -/
def Status.code : Status → BitVec 4
  | .ok => 0#4
  | .invalidArgument => 1#4
  | .invalidFormat => 2#4
  | .invalidSeed => 3#4
  | .notSeeded => 4#4
  | .illegalCommand => 5#4

/-- The response word `{status, data}` (30_encoding.md R85). -/
def mkResponse (st : Status) (data : Word) : Response := st.code ++ data

/-- `status`, bits 67 to 64 of a response (R85). -/
def statusField (r : Response) : BitVec 4 := r.extractLsb' 64 4

/-- `data`, bits 63 to 0 of a response (R85). -/
def dataField (r : Response) : Word := r.extractLsb' 0 64

/-- The end of a command: one step that writes `RSP` and clears `BUSY` (70_reset_and_hazards.md R268). -/
def State.finish (s : State) (st : Status) (data : Word) : State :=
  { s with RSP := mkResponse st data, BUSY := false, ended := true }

/-- `raise <Status>`, the one exceptional exit: `RSP <- {status, 0}`, `BUSY <- 0`, no other state
changes (60_exceptions.md R236). Nothing is saved and there is nothing to return from (R241, R244). -/
def raise (st : Status) (s : State) : Result := .next (s.finish st 0#64)

/-- `return v`: the command ends with `OK` and data `v` (00_scope.md R17). -/
def done (v : Word) (s : State) : Result := .next (s.finish .ok v)

/-! ## `draw()` (40_bitengine.md R113) -/

/-- The word the next `draw()` yields: the new value of `S` is mixed. -/
def State.drawn (s : State) : Word := mix (advance s.S)

/-- The state after a `draw()`: only `S` is written. -/
def State.afterDraw (s : State) : State := { s with S := advance s.S }

/-- `draw()[31:0]`, the 32-bit raw word (40_bitengine.md R115). -/
def State.drawn32 (s : State) : Half := s.drawn.extractLsb' 0 32

/-! ## Loading a state word (40_bitengine.md R110, 43_statecodec.md R213) -/

/-- `S <- w`, `SEEDED <- 1`, `RDPOS <- 0`: what `SEED` and a successful `UNMARSHAL` write (R121). -/
def State.load (s : State) (w : Word) : State := { s with S := w, SEEDED := true, RDPOS := 0#4 }

/-! ## The port, the host's reads and the platform (70_reset_and_hazards.md) -/

/-- Acceptance (R267): the word is latched and `BUSY` set, nothing else of the block changes. -/
def State.accept (s : State) (w : Command) (rest : List Event) : State :=
  { s with BUSY := true, latch := w, pos := .start, events := rest }

/-- Reset (R260): every register takes its value of 10_state.md R34 and a running command is abandoned. -/
def afterReset (rest : List Event) : State := { State.reset with events := rest }

/-- The host's read of `RSP` (R271): while idle what the register holds, the last response once a command
has ended since reset, its reset value before (DESIGN CHOICE, log entry 18); while `BUSY = 1` a fault
(DESIGN CHOICE, log entry 8). -/
def State.readRsp (s : State) : Except Fault Response :=
  if s.BUSY then .error .rspReadWhileBusy else .ok s.RSP

/-- One step of the block with what the host and the platform do in it, over the sequencer's own pass. -/
def portStep (sequencer : State → Result) (s : State) : Result :=
  match s.events with
  | .reset :: rest => .next (afterReset rest)
  | .readRsp :: rest =>
    match s.readRsp with
    | .ok _ => .next { s with events := rest }
    | .error f => .fault f
  | .readBusy :: rest =>
    if s.BUSY then sequencer { s with events := rest } else .next { s with events := rest }
  | .waitIdle :: rest => if s.BUSY then sequencer s else .next { s with events := rest }
  | .command w :: rest => if s.BUSY then sequencer s else .next (s.accept w rest)
  | [] => if s.BUSY then sequencer s else .next s

/-- The event is held while `BUSY = 1`: it lets the sequencer go on and stays where it is. -/
def Event.isHeld : Event → Bool
  | .command _ | .waitIdle => true
  | .reset | .readBusy | .readRsp => false

/-- The state in which the port has just accepted `w` and nothing comes before its first pass. -/
def State.place (s : State) (w : Command) : State :=
  s.accept w (s.events.dropWhile fun e => !e.isHeld)

end Sys2Proof.Machine
end

