-- ==== Sys2Proof/Machine/Flags.lean ====
section
/-! DEFINITION. Sys2Proof/Machine/Flags.lean: the two flags of spec/10_state.md R31. There are no
condition codes. `BUSY` is set by `State.accept` and cleared by `State.finish`; `SEEDED` is set by
`State.load` and read here. -/

namespace Sys2Proof.Machine

/-- The guard of the drawing class and of `MARSHAL`: with `SEEDED = 0` the command ends with
`NotSeeded` before its operand is looked at (60_exceptions.md R234, R238). Every pass of a loop asks
again; `SEEDED` cannot change while a command runs. -/
def whenSeeded (s : State) (body : State → Result) : Result :=
  if s.SEEDED then body s else raise .notSeeded s

end Sys2Proof.Machine
end

