-- ==== Sys2Proof/Machine/Operands.lean ====
section
/-! DEFINITION. Sys2Proof/Machine/Operands.lean: how the commands read their operands (30_encoding.md
R82) and the fields of a raw word (42_ziggurat.md R181). -/

namespace Sys2Proof.Machine

/-- The bound of `BOUND32` and `BOUND64`, an unsigned integer: only 0 is refused (60_exceptions.md R232). -/
def badUnsignedBound {w : Nat} (n : BitVec w) : Bool := n == 0#w

/-- The bound of `INT31N` and `INT63N`, two's complement: 0 and every n with its top bit set are refused
(41_bounded.md R152, R153). -/
def badSignedBound {w : Nat} (n : BitVec w) : Bool := n.msb || n == 0#w

/-- `zext_64` of a byte or of a half word (00_scope.md R17). -/
def zext64 {w : Nat} (v : BitVec w) : Word := v.setWidth 64

/-- The layer index `i = v[7:0]` (42_ziggurat.md R181). -/
def layerIndex (v : Word) : Byte := v.extractLsb' 0 8

/-- The mantissa field `j = v[63:32]` (42_ziggurat.md R181). -/
def mantissa (v : Word) : Half := v.extractLsb' 32 32

/-- The sign bit of `NORM`, `s = v[8]` (42_ziggurat.md R191). -/
def signBit (v : Word) : Bool := v.getLsbD 8

end Sys2Proof.Machine
end

