-- ==== Sys2Proof/Machine/BitEngine.lean ====
section
/-! DEFINITION. Sys2Proof/Machine/BitEngine.lean: the commands of spec/40_bitengine.md. -/

namespace Sys2Proof.Machine

/-- `SEED w` (R110): never `InvalidSeed`, no draw, the residue is discarded (R121). -/
def execSeed (w : Word) (s : State) : Result := done 0#64 (s.load w)

/-- `NEXT64` (R114): one draw. -/
def execNext64 (s : State) : Result := whenSeeded s fun s => done s.drawn s.afterDraw

/-- `NEXT32` (R115): one draw, its low 32 bits. -/
def execNext32 (s : State) : Result := whenSeeded s fun s => done (zext64 s.drawn32) s.afterDraw

/-- `UNIF` (R118): one draw through `U_HALF`. -/
def execUnif (s : State) : Result := whenSeeded s fun s => done (uHalf s.drawn) s.afterDraw

/-- The residue register filled when it is empty: `RDVAL <- draw()`, `RDPOS <- 8` (R119). -/
def State.refill (s : State) : State :=
  if s.RDPOS = 0#4 then { s.afterDraw with RDVAL := s.drawn, RDPOS := 8#4 } else s

/-- One byte taken out of the residue: `RDVAL <- RDVAL >> 8`, `RDPOS <- RDPOS - 1` (R119). -/
def State.shiftByte (s : State) : State := { s with RDVAL := s.RDVAL >>> 8, RDPOS := s.RDPOS - 1#4 }

/-- The state after the loop of R119 has given out c bytes. -/
def State.afterBytes : Nat → State → State
  | 0, s => s
  | c + 1, s => State.afterBytes c s.refill.shiftByte

/-- What the loop of R119 gives out, the first byte in bits 7 to 0. -/
def State.bytesOut : Nat → State → Word
  | 0, _ => 0#64
  | c + 1, s => zext64 (s.refill.RDVAL.extractLsb' 0 8) ||| (State.bytesOut c s.refill.shiftByte <<< 8)

/-- `RDBYTES c` (R119). A count above 8 has no legal word; it answers as its word does (30_encoding.md
R88 (c), log entry 10). -/
def execRdbytes (c : BitVec 4) (s : State) : Result :=
  if 8 < c.toNat then raise .illegalCommand s
  else whenSeeded s fun s => done (s.bytesOut c.toNat) (s.afterBytes c.toNat)

end Sys2Proof.Machine
end

