-- ==== Sys2Proof/Machine/Multiply.lean ====
section
/-! DEFINITION. Sys2Proof/Machine/Multiply.lean: the widening multipliers and the threshold of
spec/41_bounded.md R142 to R146. -/

namespace Sys2Proof.Machine

/-- The high and the low half of a double-width product. -/
structure Halves (w : Nat) where
  hi : BitVec w
  lo : BitVec w
  deriving DecidableEq, Repr

/-- Bits 31 to 0 of a word. -/
def lowHalf (v : Word) : Half := v.extractLsb' 0 32

/-- Bits 63 to 32 of a word. -/
def highHalf (v : Word) : Half := v.extractLsb' 32 32

/-- The exact 32x32 product as a 64-bit word (R142). -/
def mul32 (a b : Half) : Word := a.setWidth 64 * b.setWidth 64

/-- The halves of the 32-bit product (R142). -/
def product32 (v n : Half) : Halves 32 := ⟨highHalf (mul32 v n), lowHalf (mul32 v n)⟩

/-- The 64x64 product from four 32x32 products and carry propagation (R144). -/
def mul64 (a b : Word) : Halves 64 :=
  let p00 := mul32 (lowHalf a) (lowHalf b)
  let p01 := mul32 (lowHalf a) (highHalf b)
  let p10 := mul32 (highHalf a) (lowHalf b)
  let p11 := mul32 (highHalf a) (highHalf b)
  let mid := p01 + (highHalf p00).setWidth 64
  let mid2 := p10 + (lowHalf mid).setWidth 64
  ⟨p11 + (highHalf mid).setWidth 64 + (highHalf mid2).setWidth 64, lowHalf mid2 ++ lowHalf p00⟩

/-- `THR(w, n) = (2^w - n) mod n` (R146): the two's-complement negation, then an unsigned remainder. -/
def threshold {w : Nat} (n : BitVec w) : BitVec w := (-n) % n

/-- What one raw word decides in a bounded draw: the result, or a redraw against the threshold. -/
inductive Verdict (w : Nat) where
  | accept (r : BitVec w)
  | reject (thr : BitVec w)
  deriving DecidableEq, Repr

/-- The first raw word (R141): the threshold is computed only when the low half is below the bound (R147). -/
def judgeFirst {w : Nat} (n : BitVec w) (p : Halves w) : Verdict w :=
  if p.lo < n then
    if p.lo < threshold n then .reject (threshold n) else .accept p.hi
  else .accept p.hi

/-- A redrawn word (R141): its low half against the threshold already computed. -/
def judgeRedraw {w : Nat} (thr : BitVec w) (p : Halves w) : Verdict w :=
  if p.lo < thr then .reject thr else .accept p.hi

end Sys2Proof.Machine
end

