-- ==== Sys2Proof/Machine/BoundedSampler.lean ====
section
/-! DEFINITION. Sys2Proof/Machine/BoundedSampler.lean: the commands of spec/41_bounded.md. A meaning is
one pass of the sequencer (70_reset_and_hazards.md R270): the checks and the first raw word, or one
redraw; a rejected word leaves `BUSY` set and the threshold latched. -/

namespace Sys2Proof.Machine

/-- What a 32-bit raw word decides at the sequencer's position (R141). -/
def verdict32 (n : Half) (s : State) : Verdict 32 :=
  match s.pos with
  | .redraw32 thr => judgeRedraw thr (product32 s.drawn32 n)
  | .start | .redraw64 _ | .tail _ => judgeFirst n (product32 s.drawn32 n)

/-- What a 64-bit raw word decides at the sequencer's position (R141). -/
def verdict64 (n : Word) (s : State) : Verdict 64 :=
  match s.pos with
  | .redraw64 thr => judgeRedraw thr (mul64 s.drawn n)
  | .start | .redraw32 _ | .tail _ => judgeFirst n (mul64 s.drawn n)

/-- One pass of `LEMIRE(32, n)` (R141), for n > 0: `n = 1` returns 0 without a draw. -/
def lemire32 (n : Half) (s : State) : Result :=
  if n = 1#32 then done 0#64 s
  else match verdict32 n s with
    | .accept r => done (zext64 r) s.afterDraw
    | .reject thr => .next { s.afterDraw with pos := .redraw32 thr }

/-- One pass of `LEMIRE(64, n)` (R141), for n > 0. -/
def lemire64 (n : Word) (s : State) : Result :=
  if n = 1#64 then done 0#64 s
  else match verdict64 n s with
    | .accept r => done r s.afterDraw
    | .reject thr => .next { s.afterDraw with pos := .redraw64 thr }

/-- `BOUND32 n` (R148). -/
def execBound32 (n : Half) (s : State) : Result :=
  whenSeeded s fun s => if badUnsignedBound n then raise .invalidArgument s else lemire32 n s

/-- `BOUND64 n` (R149). -/
def execBound64 (n : Word) (s : State) : Result :=
  whenSeeded s fun s => if badUnsignedBound n then raise .invalidArgument s else lemire64 n s

/-- `INT31N n` (R152): the bound is signed, the result is that of `BOUND32` on the same bits. -/
def execInt31n (n : Half) (s : State) : Result :=
  whenSeeded s fun s => if badSignedBound n then raise .invalidArgument s else lemire32 n s

/-- `INT63N n` (R153): the bound is signed, the result is that of `BOUND64` on the same bits. -/
def execInt63n (n : Word) (s : State) : Result :=
  whenSeeded s fun s => if badSignedBound n then raise .invalidArgument s else lemire64 n s

end Sys2Proof.Machine
end

