-- ==== Sys2Proof/Machine/StateImage.lean ====
section
/-! DEFINITION. Sys2Proof/Machine/StateImage.lean: the commands of spec/43_statecodec.md. -/

namespace Sys2Proof.Machine

/-- The format and version tag (00_scope.md R16, 20_memory.md R58). -/
def imageTag : Word := 0x00000001474E524B#64

/-- The length of the image in bytes (00_scope.md R16). -/
def imageLength : Word := 16#64

/-- `image(s)` written over a memory: the tag at 0 to 7, the state word at 8 to 15 (R210). -/
def writeImage (m : Memory) (w : Word) : Memory :=
  memWrite (memWrite m 0 8 imageTag.toNat) 8 8 w.toNat

/-- `MARSHAL` (R211). -/
def execMarshal (s : State) : Result :=
  whenSeeded s fun s => done imageLength { s with IMG := writeImage s.IMG s.S }

/-- `UNMARSHAL len` (R213): both checks before the first write, the length first (R214). -/
def execUnmarshal (len : Word) (s : State) : Result :=
  if len ≠ imageLength then raise .invalidFormat s
  else if memRead s.IMG 0 8 ≠ imageTag.toNat then raise .invalidFormat s
  else done 0#64 (s.load (BitVec.ofNat 64 (memRead s.IMG 8 8)))

/-- `IMGRD a` (R216). -/
def execImgrd (a : BitVec 4) (s : State) : Result :=
  done (BitVec.ofNat 64 (memRead s.IMG a.toNat 1)) s

/-- `IMGWR a, b` (R217). -/
def execImgwr (a : BitVec 4) (b : Byte) (s : State) : Result :=
  done 0#64 { s with IMG := memWrite s.IMG a.toNat 1 b.toNat }

end Sys2Proof.Machine
end

