-- ==== Sys2Proof/Config.lean ====
section
/-! DEFINITION. Sys2Proof/Config.lean: the OPEN parameters of spec/00_scope.md R12 and R14. Each is an
opaque constant: no proof can see a value of it, so a claim about the machine holds for every
`ROM`, `EXP64` and `LN64` (log entry 6). -/

namespace Sys2Proof

/-- The Ziggurat tables and the normal base-strip constant (R12, 20_memory.md R60, R61): entries of
`ke` and `kn` are unsigned integers, every other entry is a binary64 pattern. The index is an 8-bit
field, so none is out of range. -/
structure Rom where
  ke : Byte → Word
  we : Byte → Word
  fe : Byte → Word
  kn : Byte → Word
  wn : Byte → Word
  fn : Byte → Word
  rn : Word

/-- Everything the Ziggurat unit takes as a parameter: `ROM`, `EXP64`, `LN64` (10_state.md R35). -/
structure ZigParams where
  rom : Rom
  exp64 : Word → Word
  ln64 : Word → Word

namespace Config

/-- `ROM.KE`, the exponential rejection thresholds. -/
opaque ke : Byte → Word
/-- `ROM.WE`, the exponential layer widths. -/
opaque we : Byte → Word
/-- `ROM.FE`, the exponential density values. -/
opaque fe : Byte → Word
/-- `ROM.KN`, the normal rejection thresholds. -/
opaque kn : Byte → Word
/-- `ROM.WN`, the normal layer widths. -/
opaque wn : Byte → Word
/-- `ROM.FN`, the normal density values. -/
opaque fn : Byte → Word
/-- `ROM.RN`, the normal base-strip coordinate. -/
opaque rn : Word
/-- `EXP64`, the exponential in binary64 (R14). -/
opaque exp64 : Word → Word
/-- `LN64`, the natural logarithm in binary64 (R14). -/
opaque ln64 : Word → Word

/-- The parameters of this machine. -/
def zig : ZigParams :=
  { rom := { ke := ke, we := we, fe := fe, kn := kn, wn := wn, fn := fn, rn := rn }
    exp64 := exp64
    ln64 := ln64 }

end Config

end Sys2Proof
end

