-- ==== Sys2Proof/Machine/Ziggurat.lean ====
section
/-! DEFINITION. Sys2Proof/Machine/Ziggurat.lean: the commands of spec/42_ziggurat.md. The passes take
`ROM`, `EXP64` and `LN64` as an argument (00_scope.md R12, R14) and the meanings give them this machine's
opaque ones. A meaning is one pass of the sequencer (70_reset_and_hazards.md R270): one iteration, or one
pass of the `NORM` tail. The loops have no cap (R180). -/

namespace Sys2Proof.Machine

/-- The candidate of step 2: `u32_to_f64(j) * W[i]` (R182, R190). -/
def candidate (width : Byte → Word) (v : Word) : Word :=
  fmul (u32ToF64 (mantissa v)) (width (layerIndex v))

/-- The fast accept of step 3: `j`, zero-extended, strictly below `K[i]`, unsigned (R183, R192). -/
def fastAccept (k : Byte → Word) (v : Word) : Bool :=
  decide (zext64 (mantissa v) < k (layerIndex v))

/-- The slow path's left side: `F[i] + u2 * (F[i-1] - F[i])`, each operation rounded (R185, R194). -/
def slowLevel (f : Byte → Word) (i : Byte) (u2 : Word) : Word :=
  fadd (f i) (fmul u2 (fsub (f (i - 1#8)) (f i)))

/-- The slow path of `EXP` accepts: strictly below `EXP64(-x)` (R185). -/
def expSlowAccept (P : ZigParams) (i : Byte) (x u2 : Word) : Bool :=
  flt (slowLevel P.rom.fe i u2) (P.exp64 (fneg x))

/-- The slow path of `NORM` accepts: strictly below `EXP64(-0.5 * (x * x))` (R194). -/
def normSlowAccept (P : ZigParams) (i : Byte) (x u2 : Word) : Bool :=
  flt (slowLevel P.rom.fn i u2) (P.exp64 (fmul negHalf (fmul x x)))

/-- A rejected iteration: nothing of it is kept but the draws it made (R180). -/
def State.retry (s : State) : State := { s with pos := .start }

/-- One iteration of `EXP` (R182): threshold test, then `i = 0`, then the slow path (R197). -/
def expPass (P : ZigParams) (s : State) : State :=
  let v := s.drawn
  let s1 := s.afterDraw
  if fastAccept P.rom.ke v then s1.finish .ok (candidate P.rom.we v)
  else if layerIndex v = 0#8 then
    s1.afterDraw.finish .ok (fsub baseStripExp (P.ln64 (uOpen s1.drawn)))
  else if expSlowAccept P (layerIndex v) (candidate P.rom.we v) (uOpen s1.drawn) then
    s1.afterDraw.finish .ok (candidate P.rom.we v)
  else s1.afterDraw.retry

/-- One iteration of `NORM` (R190) up to the tail, which it enters with the sign latched. -/
def normIteration (P : ZigParams) (s : State) : State :=
  let v := s.drawn
  let s1 := s.afterDraw
  if fastAccept P.rom.kn v then s1.finish .ok (sgn (signBit v) (candidate P.rom.wn v))
  else if layerIndex v = 0#8 then { s1 with pos := .tail (signBit v) }
  else if normSlowAccept P (layerIndex v) (candidate P.rom.wn v) (uOpen s1.drawn) then
    s1.afterDraw.finish .ok (sgn (signBit v) (candidate P.rom.wn v))
  else s1.afterDraw.retry

/-- `xt = -LN64(u1) / RN` of a tail pass (R193). -/
def tailX (P : ZigParams) (u1 : Word) : Word := fdiv (fneg (P.ln64 u1)) P.rom.rn

/-- `yt = -LN64(u2)` of a tail pass (R193). -/
def tailY (P : ZigParams) (u2 : Word) : Word := fneg (P.ln64 u2)

/-- One pass of the tail loop of `NORM` (R193): two words, `xt` first; on failure the pass repeats. -/
def normTailPass (P : ZigParams) (sign : Bool) (s : State) : State :=
  let s1 := s.afterDraw
  let xt := tailX P (uOpen s.drawn)
  let yt := tailY P (uOpen s1.drawn)
  if fge (fadd yt yt) (fmul xt xt) then s1.afterDraw.finish .ok (sgn sign (fadd P.rom.rn xt))
  else s1.afterDraw

/-- One pass of `NORM` at the sequencer's position. -/
def normPass (P : ZigParams) (s : State) : State :=
  match s.pos with
  | .tail sign => normTailPass P sign s
  | .start | .redraw32 _ | .redraw64 _ => normIteration P s

/-- `EXP` (R182). -/
def execExp (s : State) : Result := whenSeeded s fun s => .next (expPass Config.zig s)

/-- `NORM` (R190). -/
def execNorm (s : State) : Result := whenSeeded s fun s => .next (normPass Config.zig s)

end Sys2Proof.Machine
end

