-- ==== Sys2Proof/Machine/Dispatch.lean ====
section
/-! DEFINITION. Sys2Proof/Machine/Dispatch.lean: one pass of the sequencer for each command. -/

namespace Sys2Proof.Machine

def exec (i : Instr) (s : State) : Host.Outcome State Fault Refusal :=
  match i with
  | .seed w => Sys2Proof.Machine.execSeed w s
  | .next64 => Sys2Proof.Machine.execNext64 s
  | .next32 => Sys2Proof.Machine.execNext32 s
  | .unif => Sys2Proof.Machine.execUnif s
  | .rdbytes c => Sys2Proof.Machine.execRdbytes c s
  | .bound32 n => Sys2Proof.Machine.execBound32 n s
  | .bound64 n => Sys2Proof.Machine.execBound64 n s
  | .int31n n => Sys2Proof.Machine.execInt31n n s
  | .int63n n => Sys2Proof.Machine.execInt63n n s
  | .exp => Sys2Proof.Machine.execExp s
  | .norm => Sys2Proof.Machine.execNorm s
  | .marshal => Sys2Proof.Machine.execMarshal s
  | .unmarshal len => Sys2Proof.Machine.execUnmarshal len s
  | .imgrd a => Sys2Proof.Machine.execImgrd a s
  | .imgwr a b => Sys2Proof.Machine.execImgwr a b s

end Sys2Proof.Machine
end

