-- ==== Sys2Proof/Machine/Sequencer.lean ====
section
/-! DEFINITION. Sys2Proof/Machine/Sequencer.lean: the sequencer of spec/70_reset_and_hazards.md R268. -/

namespace Sys2Proof.Machine

/-- One pass of the accepted command; an illegal word ends at once with `IllegalCommand` (30_encoding.md
R88). -/
def sequencerStep (s : State) : Result :=
  match decode s.latch with
  | .command i => exec i s
  | .illegal _ => raise .illegalCommand s

end Sys2Proof.Machine
end

