-- ==== Sys2Proof/Machine/Step.lean ====
section
/-! DEFINITION. Sys2Proof/Machine/Step.lean: one step of the machine, and how a command is placed. -/

namespace Sys2Proof.Machine

/-- One step: what the host or the platform does, or one pass of the sequencer. -/
def step (s : State) : Host.Outcome State Fault Refusal := portStep sequencerStep s

/-- The state whose next step runs the command in the low `nbits` bits of `w`: it stands in the
sequencer's latch, just accepted (log entry 1). -/
def State.withFetchWord (s : State) (nbits w : Nat) : State :=
  s.place (BitVec.ofNat 72 (w % 2 ^ nbits))

end Sys2Proof.Machine
end

