-- ==== Sys2Proof/Machine/Assembler.lean ====
section
/-! DEFINITION. Sys2Proof/Machine/Assembler.lean: the host's toolchain of spec/30_encoding.md R100 to
R103 and the command sequences of spec/43_statecodec.md R218. -/

namespace Sys2Proof.Machine

/-! ## Pseudo-commands and host sequences -/

/-- `INTN n` (R103). -/
def pseudoIntn (n : Word) : List Instr := [.int63n n]

/-- Byte k of a word, byte 0 the least significant. -/
def byteOf (v : Word) (k : Nat) : Byte := v.extractLsb' (8 * k) 8

/-- `IMGWR64 a, v` (R103): eight commands, ascending address, least significant byte first. -/
def pseudoImgwr64 (a : Nat) (v : Word) : List Instr :=
  (List.range 8).map fun k => .imgwr (BitVec.ofNat 4 (a + k)) (byteOf v k)

/-- `LOADSTATE v` (R103): seventeen commands. -/
def pseudoLoadstate (v : Word) : List Instr :=
  pseudoImgwr64 0 imageTag ++ pseudoImgwr64 8 v ++ [.unmarshal imageLength]

/-- The host's `marshal` (R218): `MARSHAL`, then the sixteen bytes in order. -/
def marshalSequence : List Instr :=
  .marshal :: (List.range 16).map fun k => .imgrd (BitVec.ofNat 4 k)

/-- The host's `unmarshal` of a buffer (R218): its bytes to the addresses from 0, then the length. For a
buffer of sixteen bytes that is the rule's sequence. DESIGN CHOICE (log entry 17): of what R218 allows
for another length, the true length is passed to the block and not refused by the host, and every byte
is written all the same, byte k at address k mod 16. -/
def unmarshalSequence (bytes : List Byte) (len : Word) : List Instr :=
  (bytes.mapIdx fun k b => .imgwr (BitVec.ofNat 4 k) b) ++ [.unmarshal len]

/-! ## Assembler text (R100) -/

/-- Why the assembler refuses a line. -/
inductive AsmError where
  | unknownMnemonic
  | wrongOperands
  | notANumber
  | doesNotFit
  deriving DecidableEq, Repr

/-- The digits in order of value; a number is decimal or hexadecimal (R100), so a base takes the first of
them. -/
def numerals : List Char := "0123456789ABCDEF".toList

/-- The value of a digit of a base; letters of either case (log entry 14). -/
def digitValue (base : Nat) (c : Char) : Option Nat := (numerals.take base).idxOf? c.toUpper

/-- The number the digits spell, most significant first; none where one is no digit of the base. -/
def parseDigits (base : Nat) (ds : List Char) : Option Nat :=
  (ds.mapM (digitValue base)).map (List.foldl (fun n d => base * n + d) 0)

/-- Decimal, or hexadecimal with the prefix `0x` (R100). -/
def parseNumber : List Char → Option Nat
  | [] => none
  | '0' :: 'x' :: d :: ds => parseDigits 16 (d :: ds)
  | d :: ds => parseDigits 10 (d :: ds)

/-- An unsigned operand at the width of its field. -/
def unsignedOperand (w : Nat) (t : List Char) : Except AsmError (BitVec w) :=
  match parseNumber t with
  | none => .error .notANumber
  | some n => if n < 2 ^ w then .ok (BitVec.ofNat w n) else .error .doesNotFit

/-- A signed operand: a leading `-` stands for the two's complement at the operand's width (R100). -/
def signedOperand (w : Nat) : List Char → Except AsmError (BitVec w)
  | '-' :: ds =>
    match parseNumber ds with
    | none => .error .notANumber
    | some n => if n ≤ 2 ^ (w - 1) then .ok (-(BitVec.ofNat w n)) else .error .doesNotFit
  | ds => unsignedOperand w ds

/-- The text cut at every occurrence of a character. -/
def cutAt (sep : Char) : List Char → List (List Char)
  | [] => [[]]
  | c :: cs =>
    if c = sep then [] :: cutAt sep cs
    else match cutAt sep cs with
      | [] => [[c]]
      | piece :: pieces => (c :: piece) :: pieces

/-- White space between the parts of a line: a space, a tab, a carriage return, which R100 does not name
(DESIGN CHOICE, log entry 14). -/
def isBlank (c : Char) : Bool := c == ' ' || c == '\t' || c == '\r'

/-- The text without white space at its ends. -/
def trimBlank (t : List Char) : List Char :=
  ((t.dropWhile isBlank).reverse.dropWhile isBlank).reverse

/-- The operands after the mnemonic, separated by commas; none where nothing stands there. -/
def operandTexts (t : List Char) : List (List Char) :=
  if trimBlank t = [] then [] else (cutAt ',' t).map trimBlank

/-- A command without operands. -/
def assembleNone (i : Instr) : List (List Char) → Except AsmError (List Instr)
  | [] => .ok [i]
  | _ :: _ => .error .wrongOperands

/-- A command with one operand. -/
def assembleOne {w : Nat} (read : List Char → Except AsmError (BitVec w)) (f : BitVec w → List Instr) :
    List (List Char) → Except AsmError (List Instr)
  | [t] => (read t).map f
  | _ => .error .wrongOperands

/-- `RDBYTES c`: the assembler never emits a count the decoder refuses (R100). -/
def assembleCount (ts : List (List Char)) : Except AsmError (List Instr) :=
  match ts with
  | [t] =>
    match unsignedOperand 4 t with
    | .error e => .error e
    | .ok c => if c.toNat ≤ 8 then .ok [.rdbytes c] else .error .doesNotFit
  | _ => .error .wrongOperands

/-- `IMGWR a, b`. -/
def assembleImgwr (ts : List (List Char)) : Except AsmError (List Instr) :=
  match ts with
  | [t, u] =>
    match unsignedOperand 4 t, unsignedOperand 8 u with
    | .ok a, .ok b => .ok [.imgwr a b]
    | .error e, _ => .error e
    | .ok _, .error e => .error e
  | _ => .error .wrongOperands

/-- `IMGWR64 a, v` with a in {0, 8} (R103). -/
def assembleImgwr64 (ts : List (List Char)) : Except AsmError (List Instr) :=
  match ts with
  | [t, u] =>
    match unsignedOperand 4 t, unsignedOperand 64 u with
    | .ok a, .ok v => if a = 0#4 ∨ a = 8#4 then .ok (pseudoImgwr64 a.toNat v) else .error .doesNotFit
    | .error e, _ => .error e
    | .ok _, .error e => .error e
  | _ => .error .wrongOperands

/-- The mnemonics of R83 and the pseudo-commands of R103, with their operand order (R100). -/
def assembleMnemonic (m : List Char) (ts : List (List Char)) : Except AsmError (List Instr) :=
  if m = "SEED".toList then assembleOne (unsignedOperand 64) (fun w => [.seed w]) ts
  else if m = "NEXT64".toList then assembleNone .next64 ts
  else if m = "NEXT32".toList then assembleNone .next32 ts
  else if m = "UNIF".toList then assembleNone .unif ts
  else if m = "RDBYTES".toList then assembleCount ts
  else if m = "BOUND32".toList then assembleOne (unsignedOperand 32) (fun n => [.bound32 n]) ts
  else if m = "BOUND64".toList then assembleOne (unsignedOperand 64) (fun n => [.bound64 n]) ts
  else if m = "INT31N".toList then assembleOne (signedOperand 32) (fun n => [.int31n n]) ts
  else if m = "INT63N".toList then assembleOne (signedOperand 64) (fun n => [.int63n n]) ts
  else if m = "EXP".toList then assembleNone .exp ts
  else if m = "NORM".toList then assembleNone .norm ts
  else if m = "MARSHAL".toList then assembleNone .marshal ts
  else if m = "UNMARSHAL".toList then assembleOne (unsignedOperand 64) (fun n => [.unmarshal n]) ts
  else if m = "IMGRD".toList then assembleOne (unsignedOperand 4) (fun a => [.imgrd a]) ts
  else if m = "IMGWR".toList then assembleImgwr ts
  else if m = "INTN".toList then assembleOne (signedOperand 64) pseudoIntn ts
  else if m = "IMGWR64".toList then assembleImgwr64 ts
  else if m = "LOADSTATE".toList then assembleOne (unsignedOperand 64) pseudoLoadstate ts
  else .error .unknownMnemonic

/-- One line (R100): a comment runs from `#` to the end, an empty line holds no command. -/
def assembleLine (line : List Char) : Except AsmError (List Instr) :=
  let t := trimBlank (line.takeWhile fun c => !(c == '#'))
  if t = [] then .ok []
  else assembleMnemonic (t.takeWhile fun c => !isBlank c) (operandTexts (t.dropWhile fun c => !isBlank c))

/-- The commands of the lines in order, or the first refusal. -/
def assembleLines : List (List Char) → Except AsmError (List Instr)
  | [] => .ok []
  | l :: ls =>
    match assembleLine l with
    | .error e => .error e
    | .ok is =>
      match assembleLines ls with
      | .error e => .error e
      | .ok js => .ok (is ++ js)

/-- A program text: one command per line (R100); a line feed ends a line (DESIGN CHOICE, log entry 14). -/
def assemble (text : List Char) : Except AsmError (List Instr) := assembleLines (cutAt '\n' text)

/-! ## Listings (R102) -/

/-- The name a listing gives a status number; the reserved numbers have none (R86). -/
def statusName (st : BitVec 4) : Option (List Char) :=
  if st = 0#4 then some "OK".toList
  else if st = 1#4 then some "InvalidArgument".toList
  else if st = 2#4 then some "InvalidFormat".toList
  else if st = 3#4 then some "InvalidSeed".toList
  else if st = 4#4 then some "NotSeeded".toList
  else if st = 5#4 then some "IllegalCommand".toList
  else none

/-- The low n hexadecimal digits of a number, most significant first. -/
def hexDigits : Nat → Nat → List Char
  | 0, _ => []
  | n + 1, v => hexDigits n (v / 16) ++ (numerals.drop (v % 16)).take 1

/-- The response as a program listing writes it: `-> OK 0x` and the data, or `->` and the error. -/
def listing (r : Response) : Option (List Char) :=
  (statusName (statusField r)).map fun name =>
    "-> ".toList ++ name ++
      (if statusField r = 0#4 then " 0x".toList ++ hexDigits 16 (dataField r).toNat else [])

end Sys2Proof.Machine
end

