-- ==== Sys2Proof/Safety.lean ====
section
/-! DEFINITION. Sys2Proof/Safety.lean: the terms claims use. A state is safe when it meets `Invariant`;
the other definitions name what the spec speaks of and the machine does not compute: the value of a
pattern, the stream of raw words, runs, and the premises a claim may take of the parameters. -/

namespace Sys2Proof.Machine

/-! ## The invariant (10_state.md R33, R34, 30_encoding.md R86) -/

/-- The statuses this hardware gives: never `InvalidSeed` (60_exceptions.md R235), never a reserved
number (30_encoding.md R86). -/
def legalStatus (st : BitVec 4) : Bool := st == 0#4 || st == 1#4 || st == 2#4 || st == 4#4 || st == 5#4

/-- What the latches hold while a command runs beyond its first pass (10_state.md R30). -/
def State.latchesFit (s : State) : Prop :=
  match s.pos with
  | .start => True
  | .redraw32 thr => s.SEEDED = true ∧ ∃ n : Half, 1 < n.toNat ∧ thr = threshold n ∧
      (decode s.latch = .command (.bound32 n) ∨ decode s.latch = .command (.int31n n))
  | .redraw64 thr => s.SEEDED = true ∧ ∃ n : Word, 1 < n.toNat ∧ thr = threshold n ∧
      (decode s.latch = .command (.bound64 n) ∨ decode s.latch = .command (.int63n n))
  | .tail _ => s.SEEDED = true ∧ decode s.latch = .command .norm

/-- What holds after reset and is kept by every step: `IMG` in canonical form, R33's two facts, a legal
status once a command has ended, and latches that fit the running command. -/
structure State.Invariant (s : State) : Prop where
  image : s.IMG.wf = true
  residue : s.RDPOS.toNat ≤ 8
  unseeded : s.SEEDED = false → s.RDPOS = 0#4
  status : s.ended = true → legalStatus (statusField s.RSP) = true
  latches : s.BUSY = true → s.latchesFit

/-- The host may read `RSP`: the block is idle and a command has ended since reset (70_reset_and_hazards.md
R271). -/
def State.mayReadRsp (s : State) : Bool := !s.BUSY && s.ended

/-! ## Values that mean nothing (10_state.md R30, R34) -/

/-- Two blocks that differ at most in what means nothing where they stand: `S` while `SEEDED = 0`, `RDVAL`
while `RDPOS = 0`, `RSP` before a command has ended since reset, the latches while `BUSY = 0`. -/
structure State.Alike (s t : State) : Prop where
  seeded : s.SEEDED = t.SEEDED
  residueCount : s.RDPOS = t.RDPOS
  busy : s.BUSY = t.BUSY
  image : s.IMG = t.IMG
  ended : s.ended = t.ended
  events : s.events = t.events
  engine : s.SEEDED = true → s.S = t.S
  residueBytes : s.RDPOS ≠ 0#4 → s.RDVAL = t.RDVAL
  response : s.ended = true → s.RSP = t.RSP
  latches : s.BUSY = true → s.latch = t.latch ∧ s.pos = t.pos

/-! ## Answers and command classes -/

/-- The state with a response of the given status number and data, and the command at its end; nothing
else differs (60_exceptions.md R236, 70_reset_and_hazards.md R268). -/
def State.answered (s : State) (status : BitVec 4) (data : Word) : State :=
  { s with RSP := status ++ data, BUSY := false, ended := true }

/-- The drawing class (60_exceptions.md R234). -/
def drawingClass : Instr → Bool
  | .next64 | .next32 | .unif | .rdbytes _ => true
  | .bound32 _ | .bound64 _ | .int31n _ | .int63n _ => true
  | .exp | .norm => true
  | .seed _ | .marshal | .unmarshal _ | .imgrd _ | .imgwr _ _ => false

/-- The commands of 41_bounded.md. -/
def boundedClass : Instr → Bool
  | .bound32 _ | .bound64 _ | .int31n _ | .int63n _ => true
  | .seed _ | .next64 | .next32 | .unif | .rdbytes _ => false
  | .exp | .norm | .marshal | .unmarshal _ | .imgrd _ | .imgwr _ _ => false

/-! ## Runs (70_reset_and_hazards.md R276) -/

/-- `k` steps of the machine. -/
def run (k : Nat) (s : State) : Result := Host.Core.run core k s

/-- A command is running and the host and the platform leave it alone. -/
def State.Running (s : State) (i : Instr) : Prop :=
  s.BUSY = true ∧ s.events = [] ∧ decode s.latch = .command i

/-- The raw word of the draw number `j` from a state, counted from 0 (40_bitengine.md R113). -/
def State.rawWord (s : State) (j : Nat) : Word := mix (advance^[j + 1] s.S)

/-- The state after the next commands of a list, each taken as its first pass; none where one stops. -/
def runAll : List Instr → State → Option State
  | [], s => some s
  | i :: is, s =>
    match exec i s with
    | .next t => runAll is t
    | .fault _ => none
    | .refused _ => none

/-- The sixteen bytes a host reads out of a block with `IMGRD 0` to `IMGRD 15` (43_statecodec.md R218). -/
def imageBytes (s : State) : List Byte :=
  (List.range 16).map fun k =>
    match exec (.imgrd (BitVec.ofNat 4 k)) s with
    | .next t => (dataField t.RSP).extractLsb' 0 8
    | .fault _ => 0#8
    | .refused _ => 0#8

/-- The events of a host that issues the commands in order and waits for the last to end. -/
def issue (is : List Instr) : List Event := (is.map fun i => .command (encode i)) ++ [.waitIdle]

/-! ## The bounded draw over the integers (41_bounded.md R141, R146) -/

/-- The threshold `(2^w - n) mod n`. -/
def thresholdNat (w n : Nat) : Nat := (2 ^ w - n) % n

/-- The low half of `v * n`. -/
def lowPart (w n v : Nat) : Nat := v * n % 2 ^ w

/-- The high half of `v * n`. -/
def highPart (w n v : Nat) : Nat := v * n / 2 ^ w

/-- The state after one more draw. -/
def State.drew (s : State) : State := { s with S := advance s.S }

/-- What one pass of `LEMIRE(32, n)` answers for n > 0, at the head and in the redraw loop. -/
def Lemire32Pass (i : Instr) (n : Half) (s : State) : Prop :=
  let v := (s.rawWord 0).toNat % 2 ^ 32
  let result := BitVec.ofNat 64 (highPart 32 n.toNat v)
  let thr := thresholdNat 32 n.toNat
  (n = 1#32 → exec i s = .next (s.answered 0#4 0#64)) ∧
  (1 < n.toNat → s.pos = .start →
    exec i s = .next (if lowPart 32 n.toNat v < thr
      then { s.drew with pos := .redraw32 (BitVec.ofNat 32 thr) } else s.drew.answered 0#4 result)) ∧
  (∀ latched : Half, 1 < n.toNat → s.pos = .redraw32 latched →
    exec i s = .next (if lowPart 32 n.toNat v < latched.toNat then s.drew else s.drew.answered 0#4 result))

/-- What one pass of `LEMIRE(64, n)` answers for n > 0, at the head and in the redraw loop. -/
def Lemire64Pass (i : Instr) (n : Word) (s : State) : Prop :=
  let v := (s.rawWord 0).toNat
  let result := BitVec.ofNat 64 (highPart 64 n.toNat v)
  let thr := thresholdNat 64 n.toNat
  (n = 1#64 → exec i s = .next (s.answered 0#4 0#64)) ∧
  (1 < n.toNat → s.pos = .start →
    exec i s = .next (if lowPart 64 n.toNat v < thr
      then { s.drew with pos := .redraw64 (BitVec.ofNat 64 thr) } else s.drew.answered 0#4 result)) ∧
  (∀ latched : Word, 1 < n.toNat → s.pos = .redraw64 latched →
    exec i s = .next (if lowPart 64 n.toNat v < latched.toNat then s.drew else s.drew.answered 0#4 result))

/-! ## The byte stream (40_bitengine.md R120) -/

/-- Byte `k` of the stream of a state: the residue, then the bytes of the words to come. -/
def State.streamByte (s : State) (k : Nat) : Byte :=
  if k < s.RDPOS.toNat then byteOf s.RDVAL k
  else byteOf (s.rawWord ((k - s.RDPOS.toNat) / 8)) ((k - s.RDPOS.toNat) % 8)

/-- The bytes a sequence of `RDBYTES` commands gives out, concatenated, and the state it leaves; none
where one of them ends with an error. -/
def readChunks : List (BitVec 4) → State → Option (List Byte × State)
  | [], s => some ([], s)
  | c :: cs, s =>
    match exec (.rdbytes c) s with
    | .next t =>
      if statusField t.RSP = 0#4 then
        (readChunks cs t).map fun (bs, u) => ((List.range c.toNat).map (byteOf (dataField t.RSP)) ++ bs, u)
      else none
    | .fault _ => none
    | .refused _ => none

/-! ## The value of a binary64 pattern (42_ziggurat.md R170) -/

/-- The pattern is a zero, a subnormal or a normal number. -/
def isFinite (a : Word) : Bool := exponentField a != 0x7FF

/-- The value of a finite pattern. -/
def value (a : Word) : ℚ :=
  (if a.msb then -1 else 1) *
    (if exponentField a = 0 then (fractionField a : ℚ) * (2 : ℚ) ^ (-1074 : ℤ)
     else ((2 : ℚ) ^ 52 + fractionField a) * (2 : ℚ) ^ ((exponentField a : ℤ) - 1075))

/-- The place of a pattern that is no NaN among the numbers and the two infinities (R173). -/
noncomputable def extendedValue (a : Word) : EReal :=
  if isFinite a then ((value a : ℝ) : EReal) else if a.msb then ⊥ else ⊤

/-- `r` is `x` rounded to nearest, ties to even, with overflow to infinity (R170). -/
def NearestEven (x : ℚ) (r : Word) : Prop :=
  if isFinite r then
    |x| < 2 ^ 1024 - 2 ^ 970 ∧
    (∀ c, isFinite c = true → |value r - x| ≤ |value c - x|) ∧
    (∀ c, isFinite c = true → |value c - x| = |value r - x| → value c ≠ value r → r.getLsbD 0 = false)
  else 2 ^ 1024 - 2 ^ 970 ≤ |x| ∧ r = infinity (decide (x < 0))

/-! ## Premises on the parameters (20_memory.md R62, R64, 42_ziggurat.md R178) -/

/-- What the source fixes of the tables (R62). -/
def RomSourceEntries (r : Rom) : Prop := r.fe 0#8 = one ∧ r.ke 0#8 = 0#64

/-- Premise (a) of R64 on one entry: finite, sign bit 0. -/
def finiteNonneg (a : Word) : Bool := isFinite a && !a.msb

/-- Premises (a) and (b) of R64. -/
def RomAddedPremises (r : Rom) : Prop :=
  (∀ i, finiteNonneg (r.we i) ∧ finiteNonneg (r.fe i) ∧ finiteNonneg (r.wn i) ∧ finiteNonneg (r.fn i)) ∧
  finiteNonneg r.rn = true ∧ flt (zero false) r.rn = true ∧ r.fn 0#8 = one ∧ r.kn 0#8 = 0#64

/-- LN_NEG (R178): finite and negative between 0 and 1. -/
def LnNeg (ln64 : Word → Word) : Prop :=
  ∀ u, flt (zero false) u = true → flt u one = true →
    isFinite (ln64 u) = true ∧ flt (ln64 u) (zero false) = true

/-- EXP_UNIT (R178): between 0 and 1 on zeros, negative numbers and minus infinity. -/
def ExpUnit (exp64 : Word → Word) : Prop :=
  ∀ a, fge (zero false) a = true →
    isNaN (exp64 a) = false ∧ fge (exp64 a) (zero false) = true ∧ fge one (exp64 a) = true

/-- MONO (R178): non-decreasing where neither operand is a NaN. -/
def Monotone64 (f : Word → Word) : Prop :=
  ∀ a b, fge b a = true → fge (f b) (f a) = true

/-- FAITHFUL (R178): no finite binary64 value lies between the result and the real value `y`, so the
result is one of its neighbours, or `y` itself where it is representable. -/
def FaithfulAt (y : ℝ) (r : Word) : Prop :=
  isNaN r = false ∧ ∀ c, isFinite c = true →
    ¬ (y ≤ (value c : ℝ) ∧ extendedValue c < extendedValue r) ∧
    ¬ ((value c : ℝ) ≤ y ∧ extendedValue r < extendedValue c)

/-- Both parameter functions are FAITHFUL where the real function is defined (R178). -/
def Faithful (P : ZigParams) : Prop :=
  (∀ a, isFinite a = true → FaithfulAt (Real.exp (value a)) (P.exp64 a)) ∧
  (∀ a, isFinite a = true → 0 < value a → FaithfulAt (Real.log (value a)) (P.ln64 a))

end Sys2Proof.Machine
end

