-- ==== Sys2Proof/Certificates/Slice0/Obligations.lean ====
section
/-! DEFINITION. Sys2Proof/Certificates/Slice0/Obligations.lean: the statements for the provers. Where a
statement rests on a sentence the spec marks as derived, or on a choice of the model, its docstring says
so. `State.answered s st v` is `s` with `RSP = {st, v}` and the command ended, all else unchanged, so an
equation with it states the frame too. -/

open Sys2Proof Sys2Proof.Machine

/-! ## Encoding -/

/-- Every well-formed command's word decodes to the command, operands and all (30_encoding.md section 3). -/
def Obligations.DecodeInvertsEncode : Prop :=
  ∀ i : Instr, i.wellFormed = true → decode (encode i) = .command i

/-- R84: decoding is total; a word is legal exactly when it matches a row of R83 with a count of at most 8
for `RDBYTES`; no two rows match one word; the command read is that row's, with the operands of R81. -/
def Obligations.LegalWordsMatchOneRow : Prop :=
  (∀ w : Command, (∃ i, decode w = .command i) ↔
    ∃ r ∈ opcodeMap, r.matches w = true ∧ (opField w = 0x14#8 → (w.extractLsb' 0 4).toNat ≤ 8)) ∧
  (∀ w : Command, ∀ r ∈ opcodeMap, ∀ r' ∈ opcodeMap, r.matches w = true → r'.matches w = true → r = r') ∧
  (∀ (w : Command) (i : Instr), decode w = .command i → i.row.matches w = true ∧ encode i = w)

/-- R88: the three ways a word is illegal, and that an illegal command is accepted like any other and ends
at once with `IllegalCommand`, data 0 and no other change. -/
def Obligations.IllegalWordsAnswerIllegalCommand : Prop :=
  (∀ w : Command, (∃ why, decode w = .illegal why) ↔
    (∀ r ∈ opcodeMap, r.pattern.extractLsb' 64 8 ≠ opField w) ∨
    (∃ r ∈ opcodeMap, r.pattern.extractLsb' 64 8 = opField w ∧ r.matches w = false) ∨
    (opField w = 0x14#8 ∧ 8 < (w.extractLsb' 0 4).toNat)) ∧
  (∀ (s : State) (why : IllegalCause), s.BUSY = true → s.events = [] → decode s.latch = .illegal why →
    step s = .next (s.answered 5#4 0#64)) ∧
  (∀ (s : State) (w : Command) (rest : List Event) (why : IllegalCause), decode w = .illegal why →
    s.BUSY = false → s.events = .command w :: rest →
    step s = .next { s with BUSY := true, latch := w, pos := .start, events := rest }) ∧
  decode 0#72 = .illegal .unknownOpcode

/-- Words written out from 95_test_vectors.md section 7.1, one for each family. -/
def Obligations.SpecWordsDecodeAsListed : Prop :=
  decode 0x10FFFFFFFFFFFFFFFF#72 = .command (.seed 0xFFFFFFFFFFFFFFFF#64) ∧
  decode 0x140000000000000008#72 = .command (.rdbytes 8#4) ∧
  decode 0x220000000080000000#72 = .command (.int31n 0x80000000#32) ∧
  decode 0x310000000000000000#72 = .command .norm ∧
  decode 0x43000000000000FF0F#72 = .command (.imgwr 15#4 0xFF#8)

/-! ## The step, the port and reset -/

/-- A step runs the command in the latch: at every state with `BUSY = 1` where the host leaves the block
alone or is held, the step is `exec` of it; a read of `BUSY` is taken off the list first; a placed word
is run by the very next step (70_reset_and_hazards.md R268; the placing is the model's, log entry 1). -/
def Obligations.StepRunsLatchedCommand : Prop :=
  (∀ (s : State) (i : Instr), s.BUSY = true → decode s.latch = .command i →
    (∀ e ∈ s.events.head?, e.isHeld = true) → step s = exec i s) ∧
  (∀ (s : State) (i : Instr) (rest : List Event), s.BUSY = true → decode s.latch = .command i →
    s.events = .readBusy :: rest → step s = exec i { s with events := rest }) ∧
  (∀ (s : State) (w : Nat) (i : Instr), decode (BitVec.ofNat 72 (w % 2 ^ 72)) = .command i →
    step (s.withFetchWord 72 w) = exec i (s.withFetchWord 72 w))

/-- R267: a command is accepted only while `BUSY = 0`, and acceptance latches the word, puts the
sequencer at the command's head and sets `BUSY`; offered while `BUSY = 1` it is held: it stays offered,
and the latched command goes on. -/
def Obligations.PortAcceptsOnlyWhenIdle : Prop :=
  (∀ (s : State) (w : Command) (rest : List Event), s.BUSY = false → s.events = .command w :: rest →
    step s = .next { s with BUSY := true, latch := w, pos := .start, events := rest }) ∧
  (∀ (s : State) (w : Command) (rest : List Event), s.BUSY = true → s.events = .command w :: rest →
    ∃ t, step s = .next t ∧ t.events = s.events ∧ t.latch = s.latch)

/-- R260: reset may come in any state, a running command included, and leaves the values of R34; nothing
of the running command is left, and its response is not written. -/
def Obligations.ResetComesInAnyState : Prop :=
  ∀ (s : State) (rest : List Event), s.events = .reset :: rest →
    ∃ t, step s = .next t ∧ t.SEEDED = false ∧ t.RDPOS = 0#4 ∧ t.BUSY = false ∧ t.ended = false ∧
      (∀ a, byteAt t.IMG a = 0#8) ∧ t.events = rest

/-- R34: the values after reset that the spec gives. -/
def Obligations.ResetStateAsListed : Prop :=
  State.reset.SEEDED = false ∧ State.reset.RDPOS = 0#4 ∧ State.reset.BUSY = false ∧
    ∀ a, byteAt State.reset.IMG a = 0#8

/-- R265 and R271: with nothing offered an idle block does not change; a read of `BUSY` or of `RSP` changes
nothing, and where the host may read `RSP` it gets the last response. The host must not read it elsewhere:
before a command has ended the read goes on and gives what the register holds (the model's choice, log
entry 18), while `BUSY = 1` it is a fault (the model's choice, log entry 8). -/
def Obligations.HostReadsChangeNothing : Prop :=
  (∀ s : State, s.BUSY = false → s.events = [] → step s = .next s) ∧
  (∀ (s : State) (rest : List Event), s.BUSY = false → s.events = .readBusy :: rest →
    step s = .next { s with events := rest }) ∧
  (∀ (s : State) (rest : List Event), s.mayReadRsp = true → s.events = .readRsp :: rest →
    s.readRsp = .ok s.RSP ∧ step s = .next { s with events := rest }) ∧
  (∀ (s : State) (rest : List Event), s.BUSY = false → s.ended = false → s.events = .readRsp :: rest →
    s.readRsp = .ok s.RSP ∧ step s = .next { s with events := rest }) ∧
  (∀ (s : State) (rest : List Event), s.BUSY = true → s.events = .readRsp :: rest →
    step s = .fault .rspReadWhileBusy)

/-! ## Errors -/

/-- R234: while `SEEDED = 0` every command of the drawing class and `MARSHAL` raise `NotSeeded`, whatever
the operand; the four others never do. -/
def Obligations.UnseededBlockRefusesToDraw : Prop :=
  (∀ (i : Instr) (s : State), i.wellFormed = true → (drawingClass i = true ∨ i = .marshal) →
    s.SEEDED = false → exec i s = .next (s.answered 4#4 0#64)) ∧
  (∀ (i : Instr) (s t : State), i.wellFormed = true → drawingClass i = false → i ≠ .marshal →
    exec i s = .next t → statusField t.RSP ≠ 4#4)

/-- R232: `InvalidArgument` exactly at the bounds the rule names, and from no other command. -/
def Obligations.InvalidArgumentExactlyAtBadBounds : Prop :=
  (∀ (s : State), s.SEEDED = true →
    (∀ n, exec (.bound32 n) s = .next (s.answered 1#4 0#64) ↔ n = 0#32) ∧
    (∀ n, exec (.bound64 n) s = .next (s.answered 1#4 0#64) ↔ n = 0#64) ∧
    (∀ n, exec (.int31n n) s = .next (s.answered 1#4 0#64) ↔ n = 0#32 ∨ n.getLsbD 31 = true) ∧
    (∀ n, exec (.int63n n) s = .next (s.answered 1#4 0#64) ↔ n = 0#64 ∨ n.getLsbD 63 = true)) ∧
  (∀ (i : Instr) (s t : State), boundedClass i = false → s.BUSY = true → exec i s = .next t →
    t.BUSY = false → statusField t.RSP ≠ 1#4)

/-- Errors are precise (60_exceptions.md section 1, marked derived there): a command that ends with a
status other than `OK` leaves every register and `IMG` as they were, and its data is 0. -/
def Obligations.FailedCommandChangesNothing : Prop :=
  ∀ (i : Instr) (s t : State), s.BUSY = true → exec i s = .next t → t.BUSY = false →
    statusField t.RSP ≠ 0#4 → t = s.answered (statusField t.RSP) 0#64

/-- R235: `InvalidSeed` is never raised; nor is a reserved status. -/
def Obligations.InvalidSeedNeverRaised : Prop :=
  ∀ (s t : State), s.BUSY = true → sequencerStep s = .next t → t.BUSY = false →
    statusField t.RSP ≠ 3#4 ∧ (statusField t.RSP).toNat < 6

/-! ## BitEngine -/

/-- R111, R112: the state update and the output function, step by step as the rules write them. -/
def Obligations.GeneratorIsSplitMix : Prop :=
  (∀ s : Word, (advance s).toNat = (s.toNat + 0x9E3779B97F4A7C15) % 2 ^ 64) ∧
  (∀ z a b c d : Word, a = z ^^^ (z >>> 30) → b = a * 0xBF58476D1CE4E5B9#64 → c = b ^^^ (b >>> 27) →
    d = c * 0x94D049BB133111EB#64 → mix z = d ^^^ (d >>> 31))

/-- Both functions of the generator are bijections of the words (40_bitengine.md section 1, properties (a)
and (b), marked derived there). -/
def Obligations.GeneratorFunctionsAreBijections : Prop :=
  Function.Bijective advance ∧ Function.Bijective mix

/-- Property (c) of 40_bitengine.md section 1, marked derived there: over 2^64 consecutive draws every
64-bit word is yielded exactly once; and (a): the state returns after exactly 2^64 draws. -/
def Obligations.EveryWordOncePerPeriod : Prop :=
  (∀ (s : State) (v : Word), ∃! j, j < 2 ^ 64 ∧ s.rawWord j = v) ∧
  (∀ (x : Word) (k : Nat), advance^[k] x = x ↔ 2 ^ 64 ∣ k)

/-- R110: `SEED w` sets `S` to the word itself, sets `SEEDED`, discards the residue and always answers OK,
from a seeded and from an unseeded block; no draw. -/
def Obligations.SeedStoresTheWord : Prop :=
  (∀ w : Word, encode (.seed w) = 0x10#8 ++ w) ∧
  (∀ (w : Word) (s : State),
    exec (.seed w) s = .next ({ s with S := w, SEEDED := true, RDPOS := 0#4 }.answered 0#4 0#64)) ∧
  (∀ (w : Word) (s t : State), exec (.seed w) s = .next t → t.rawWord 0 = mix (w + 0x9E3779B97F4A7C15#64))

/-- R114: `NEXT64` makes one draw and returns the word; the residue is neither read nor written. -/
def Obligations.Next64ReturnsOneDraw : Prop :=
  encode .next64 = 0x11#8 ++ 0#64 ∧
  (∀ s : State, s.SEEDED = false → exec .next64 s = .next (s.answered 4#4 0#64)) ∧
  (∀ s : State, s.SEEDED = true →
    exec .next64 s = .next ({ s with S := advance s.S }.answered 0#4 (mix (advance s.S))))

/-- R115: `NEXT32` makes one draw and returns its low 32 bits, `data[63:32] = 0`. -/
def Obligations.Next32ReturnsLowHalf : Prop :=
  encode .next32 = 0x12#8 ++ 0#64 ∧
  (∀ s : State, s.SEEDED = false → exec .next32 s = .next (s.answered 4#4 0#64)) ∧
  (∀ s : State, s.SEEDED = true →
    exec .next32 s = .next ({ s with S := advance s.S }.answered 0#4
      (BitVec.ofNat 64 ((mix (advance s.S)).toNat % 2 ^ 32))))

/-- R118: `UNIF` makes one draw and returns `U_HALF` of it: a finite value from 0 up to, never, 1, with
sign bit 0. -/
def Obligations.UnifReturnsHalfOpenUniform : Prop :=
  encode .unif = 0x13#8 ++ 0#64 ∧
  (∀ s : State, s.SEEDED = false → exec .unif s = .next (s.answered 4#4 0#64)) ∧
  (∀ s : State, s.SEEDED = true → ∃ x : Word,
    exec .unif s = .next ({ s with S := advance s.S }.answered 0#4 x) ∧
    value x = ((mix (advance s.S)).toNat / 2 ^ 11 : Nat) / 2 ^ 53 ∧
    isFinite x = true ∧ x.msb = false ∧ 0 ≤ value x ∧ value x < 1)

/-- R119: `RDBYTES c` gives out the next c bytes of the state's stream, first byte lowest, zeros above; it
draws once exactly when c exceeds the residue; nothing but `S`, `RDVAL`, `RDPOS` and the response
changes. `RDPOS` at most 8 is the invariant `State.Invariant`. -/
def Obligations.RdbytesGivesOutTheStream : Prop :=
  (∀ c : BitVec 4, encode (.rdbytes c) = 0x14#8 ++ (0#60 ++ c)) ∧
  (∀ (c : BitVec 4) (s : State), c.toNat ≤ 8 → s.SEEDED = false →
    exec (.rdbytes c) s = .next (s.answered 4#4 0#64)) ∧
  (∀ (c : BitVec 4) (s : State), c.toNat ≤ 8 → s.RDPOS.toNat ≤ 8 → s.SEEDED = true →
    ∃ data : Word,
      (exec (.rdbytes c) s = .next
        (if c.toNat ≤ s.RDPOS.toNat
          then { s with RDVAL := s.RDVAL >>> (8 * c.toNat), RDPOS := s.RDPOS - c }.answered 0#4 data
          else { s with
                  S := advance s.S
                  RDVAL := mix (advance s.S) >>> (8 * (c.toNat - s.RDPOS.toNat))
                  RDPOS := BitVec.ofNat 4 (s.RDPOS.toNat + 8 - c.toNat) }.answered 0#4 data)) ∧
      (∀ k < c.toNat, byteOf data k = s.streamByte k) ∧
      (∀ k, c.toNat ≤ k → k < 8 → byteOf data k = 0#8))

/-- The chunked-read law (40_bitengine.md section 6, marked derived there): any sequence of `RDBYTES`
returns the first bytes of the stream and leaves a state whose stream is the rest, so two partitions of
one total give the same bytes. -/
def Obligations.ChunkedReadLaw : Prop :=
  (∀ (cs : List (BitVec 4)) (s : State), (∀ c ∈ cs, c.toNat ≤ 8) → s.RDPOS.toNat ≤ 8 → s.SEEDED = true →
    ∃ t, readChunks cs s =
        some ((List.range (cs.map BitVec.toNat).sum).map s.streamByte, t) ∧
      ∀ k, t.streamByte k = s.streamByte ((cs.map BitVec.toNat).sum + k)) ∧
  (∀ (cs ds : List (BitVec 4)) (s : State), (∀ c ∈ cs, c.toNat ≤ 8) → (∀ d ∈ ds, d.toNat ≤ 8) →
    s.RDPOS.toNat ≤ 8 → s.SEEDED = true → (cs.map BitVec.toNat).sum = (ds.map BitVec.toNat).sum →
    (readChunks cs s).map Prod.fst = (readChunks ds s).map Prod.fst)

/-! ## BoundedSampler -/

/-- R142, R143: `mul32` is the exact product, and the two halves of `mul64` are the exact 128-bit one. -/
def Obligations.WideningMultipliesAreExact : Prop :=
  (∀ a b : Half, (mul32 a b).toNat = a.toNat * b.toNat) ∧
  (∀ a b : Word, (mul64 a b).hi.toNat * 2 ^ 64 + (mul64 a b).lo.toNat = a.toNat * b.toNat)

/-- The equivalence of 41_bounded.md section 3 (marked derived there): a 32-bit draw on the 64x64 multiplier
is the one on the 32x32 multiplier. -/
def Obligations.BothMultipliersGiveOneDraw : Prop :=
  ∀ v n : Half,
    (mul64 (v.setWidth 64) (n.setWidth 64)).hi = 0#64 ∧
    highHalf (mul64 (v.setWidth 64) (n.setWidth 64)).lo = (product32 v n).hi ∧
    lowHalf (mul64 (v.setWidth 64) (n.setWidth 64)).lo = (product32 v n).lo

/-- The facts of 41_bounded.md section 3 on the threshold (marked derived there): it is `(2^w - n) mod n`, that
is `2^w mod n`, below n, and 0 exactly when n is a power of two. -/
def Obligations.ThresholdFacts : Prop :=
  (∀ n : Half, n ≠ 0#32 →
    (threshold n).toNat = (2 ^ 32 - n.toNat) % n.toNat ∧ (threshold n).toNat = 2 ^ 32 % n.toNat ∧
    (threshold n).toNat < n.toNat ∧ (threshold n = 0#32 ↔ ∃ k, n.toNat = 2 ^ k)) ∧
  (∀ n : Word, n ≠ 0#64 →
    (threshold n).toNat = (2 ^ 64 - n.toNat) % n.toNat ∧ (threshold n).toNat = 2 ^ 64 % n.toNat ∧
    (threshold n).toNat < n.toNat ∧ (threshold n = 0#64 ↔ ∃ k, n.toNat = 2 ^ k))

/-- The fast path (41_bounded.md section 3, marked derived there): leaving the division out when the low half
is not below the bound changes no verdict. -/
def Obligations.SkippingTheDivisionChangesNothing : Prop :=
  (∀ (n : Half) (p : Halves 32), n ≠ 0#32 → judgeFirst n p = judgeRedraw (threshold n) p) ∧
  (∀ (n : Word) (p : Halves 64), n ≠ 0#64 → judgeFirst n p = judgeRedraw (threshold n) p)

/-- The counting fact (41_bounded.md section 3, marked derived there): every result below n comes from the same
number of accepted raw words, `2^w div n`, at both widths. -/
def Obligations.EveryResultEquallyOften : Prop :=
  (∀ n : Half, n ≠ 0#32 → ∀ r < n.toNat,
    ((Finset.range (2 ^ 32)).filter fun v =>
      threshold n ≤ (product32 (BitVec.ofNat 32 v) n).lo ∧
        (product32 (BitVec.ofNat 32 v) n).hi.toNat = r).card = 2 ^ 32 / n.toNat) ∧
  (∀ n : Word, n ≠ 0#64 → ∀ r < n.toNat,
    ((Finset.range (2 ^ 64)).filter fun v =>
      threshold n ≤ (mul64 (BitVec.ofNat 64 v) n).lo ∧
        (mul64 (BitVec.ofNat 64 v) n).hi.toNat = r).card = 2 ^ 64 / n.toNat)

/-- R148: `BOUND32 n`, pass by pass; the passes are those of 70_reset_and_hazards.md R270. -/
def Obligations.Bound32AnswersByLemire : Prop :=
  (∀ n : Half, encode (.bound32 n) = 0x20#8 ++ (0#32 ++ n)) ∧
  (∀ (n : Half) (s : State), s.SEEDED = false → exec (.bound32 n) s = .next (s.answered 4#4 0#64)) ∧
  (∀ s : State, s.SEEDED = true → exec (.bound32 0#32) s = .next (s.answered 1#4 0#64)) ∧
  (∀ (n : Half) (s : State), s.SEEDED = true → Lemire32Pass (.bound32 n) n s)

/-- R149: `BOUND64 n`, pass by pass. -/
def Obligations.Bound64AnswersByLemire : Prop :=
  (∀ n : Word, encode (.bound64 n) = 0x21#8 ++ n) ∧
  (∀ (n : Word) (s : State), s.SEEDED = false → exec (.bound64 n) s = .next (s.answered 4#4 0#64)) ∧
  (∀ s : State, s.SEEDED = true → exec (.bound64 0#64) s = .next (s.answered 1#4 0#64)) ∧
  (∀ (n : Word) (s : State), s.SEEDED = true → Lemire64Pass (.bound64 n) n s)

/-- R152: `INT31N n` refuses a bound that is not positive as a signed number and is `BOUND32` otherwise; its
result has bit 31 clear. -/
def Obligations.Int31nAnswersBySignedBound : Prop :=
  (∀ n : Half, encode (.int31n n) = 0x22#8 ++ (0#32 ++ n)) ∧
  (∀ (n : Half) (s : State), s.SEEDED = false → exec (.int31n n) s = .next (s.answered 4#4 0#64)) ∧
  (∀ (n : Half) (s : State), s.SEEDED = true → n.toInt ≤ 0 →
    exec (.int31n n) s = .next (s.answered 1#4 0#64)) ∧
  (∀ (n : Half) (s : State), s.SEEDED = true → 0 < n.toInt →
    Lemire32Pass (.int31n n) n s ∧ exec (.int31n n) s = exec (.bound32 n) s) ∧
  (∀ (n : Half) (s t : State), s.BUSY = true → exec (.int31n n) s = .next t → t.BUSY = false →
    (dataField t.RSP).toNat < 2 ^ 31)

/-- R153: `INT63N n` refuses a bound that is not positive as a signed number and is `BOUND64` otherwise; its
result is not negative as a signed number. -/
def Obligations.Int63nAnswersBySignedBound : Prop :=
  (∀ n : Word, encode (.int63n n) = 0x23#8 ++ n) ∧
  (∀ (n : Word) (s : State), s.SEEDED = false → exec (.int63n n) s = .next (s.answered 4#4 0#64)) ∧
  (∀ (n : Word) (s : State), s.SEEDED = true → n.toInt ≤ 0 →
    exec (.int63n n) s = .next (s.answered 1#4 0#64)) ∧
  (∀ (n : Word) (s : State), s.SEEDED = true → 0 < n.toInt →
    Lemire64Pass (.int63n n) n s ∧ exec (.int63n n) s = exec (.bound64 n) s) ∧
  (∀ (n : Word) (s t : State), s.BUSY = true → exec (.int63n n) s = .next t → t.BUSY = false →
    0 ≤ (dataField t.RSP).toInt)

/-- R141 over whole runs: with bound 1 a bounded command yields 0 and draws nothing; otherwise it ends at
the first raw word whose low half is not below the threshold, with that word's high half, having drawn
every word up to it and no other. Each redraw is a step of its own, as R270 has it. -/
def Obligations.BoundedRunReturnsFirstAcceptedWord : Prop :=
  (∀ (i : Instr) (s : State), (i = .bound32 1#32 ∨ i = .int31n 1#32 ∨ i = .bound64 1#64 ∨ i = .int63n 1#64) →
    s.Running i → s.SEEDED = true → run 1 s = .next (s.answered 0#4 0#64)) ∧
  (∀ (n : Half) (i : Instr) (s : State) (k : Nat),
    (i = .bound32 n ∨ (i = .int31n n ∧ 0 < n.toInt)) → s.Running i → s.pos = .start → s.SEEDED = true →
    1 < n.toNat →
    (∀ j < k, lowPart 32 n.toNat ((s.rawWord j).toNat % 2 ^ 32) < thresholdNat 32 n.toNat) →
    thresholdNat 32 n.toNat ≤ lowPart 32 n.toNat ((s.rawWord k).toNat % 2 ^ 32) →
    run (k + 1) s = .next
      ({ s with
          S := advance^[k + 1] s.S
          pos := if k = 0 then .start else .redraw32 (BitVec.ofNat 32 (thresholdNat 32 n.toNat)) }.answered
        0#4 (BitVec.ofNat 64 (highPart 32 n.toNat ((s.rawWord k).toNat % 2 ^ 32))))) ∧
  (∀ (n : Word) (i : Instr) (s : State) (k : Nat),
    (i = .bound64 n ∨ (i = .int63n n ∧ 0 < n.toInt)) → s.Running i → s.pos = .start → s.SEEDED = true →
    1 < n.toNat →
    (∀ j < k, lowPart 64 n.toNat (s.rawWord j).toNat < thresholdNat 64 n.toNat) →
    thresholdNat 64 n.toNat ≤ lowPart 64 n.toNat (s.rawWord k).toNat →
    run (k + 1) s = .next
      ({ s with
          S := advance^[k + 1] s.S
          pos := if k = 0 then .start else .redraw64 (BitVec.ofNat 64 (thresholdNat 64 n.toNat)) }.answered
        0#4 (BitVec.ofNat 64 (highPart 64 n.toNat (s.rawWord k).toNat))))

/-- The bounded commands never hang on this engine (41_bounded.md section 3, marked derived there): from
acceptance they end within 2^64 passes. -/
def Obligations.BoundedCommandsNeverHang : Prop :=
  ∀ (i : Instr) (s : State), boundedClass i = true → s.Running i → s.pos = .start →
    ∃ k ≤ 2 ^ 64, ∃ t, run k s = .next t ∧ t.BUSY = false

/-- R140: a bounded draw returns an integer below its bound, on the first word and on every redraw. -/
def Obligations.BoundedResultBelowBound : Prop :=
  (∀ (n : Half) (i : Instr) (s t : State), (i = .bound32 n ∨ i = .int31n n) → s.BUSY = true →
    exec i s = .next t → t.BUSY = false → statusField t.RSP = 0#4 →
    (dataField t.RSP).toNat < n.toNat) ∧
  (∀ (n : Word) (i : Instr) (s t : State), (i = .bound64 n ∨ i = .int63n n) → s.BUSY = true →
    exec i s = .next t → t.BUSY = false → statusField t.RSP = 0#4 →
    (dataField t.RSP).toNat < n.toNat)

/-! ## Floating point -/

/-- The four operations on finite operands are the exact result rounded once to nearest, ties to even,
with overflow to infinity (42_ziggurat.md section 1). -/
def Obligations.OperationsRoundToNearestEven : Prop :=
  ∀ a b : Word, isFinite a = true → isFinite b = true →
    NearestEven (value a + value b) (fadd a b) ∧ NearestEven (value a - value b) (fsub a b) ∧
    NearestEven (value a * value b) (fmul a b) ∧
    (value b ≠ 0 → NearestEven (value a / value b) (fdiv a b))

/-- NaN operands and invalid operations give the one quiet NaN (42_ziggurat.md section 1); a division of a
nonzero number by zero gives an infinity (IEEE 754, log entry 9). -/
def Obligations.InvalidOperationsGiveQuietNaN : Prop :=
  (∀ a b : Word, isNaN a = true ∨ isNaN b = true →
    fadd a b = 0x7FF8000000000000#64 ∧ fsub a b = 0x7FF8000000000000#64 ∧
    fmul a b = 0x7FF8000000000000#64 ∧ fdiv a b = 0x7FF8000000000000#64) ∧
  (∀ s : Bool, fadd (infinity s) (infinity !s) = 0x7FF8000000000000#64 ∧
    fsub (infinity s) (infinity s) = 0x7FF8000000000000#64) ∧
  (∀ s t : Bool, fmul (zero s) (infinity t) = 0x7FF8000000000000#64 ∧
    fmul (infinity s) (zero t) = 0x7FF8000000000000#64 ∧
    fdiv (zero s) (zero t) = 0x7FF8000000000000#64 ∧
    fdiv (infinity s) (infinity t) = 0x7FF8000000000000#64) ∧
  (∀ (a : Word) (t : Bool), isFinite a = true → value a ≠ 0 →
    fdiv a (zero t) = infinity (a.msb ^^ t))

/-- R173: `flt` and `fge` compare the numbers and infinities the patterns stand for, and are false with a
NaN. -/
def Obligations.ComparisonsFollowValues : Prop :=
  (∀ a b : Word, flt a b = true ↔
    isNaN a = false ∧ isNaN b = false ∧ extendedValue a < extendedValue b) ∧
  (∀ a b : Word, fge a b = true ↔
    isNaN a = false ∧ isNaN b = false ∧ extendedValue b ≤ extendedValue a)

/-- R172: `fneg` flips bit 63 and no other, `SGN` applies it when the bit is 1. -/
def Obligations.NegationFlipsTheSignBit : Prop :=
  (∀ (a : Word) (k : Nat), k < 64 → (fneg a).getLsbD k = (if k = 63 then !a.getLsbD k else a.getLsbD k)) ∧
  fneg 0#64 = 0x8000000000000000#64 ∧
  (∀ a : Word, sgn false a = a ∧ sgn true a = fneg a)

/-- R117, R174, R177: the three conversions are exact, and where their values lie. -/
def Obligations.ConversionsAreExact : Prop :=
  (∀ v : Word, value (uHalf v) = (v.toNat / 2 ^ 11 : Nat) / 2 ^ 53 ∧ isFinite (uHalf v) = true ∧
    0 ≤ value (uHalf v) ∧ value (uHalf v) ≤ 1 - 1 / 2 ^ 53) ∧
  uHalf 0#64 = 0x0000000000000000#64 ∧ uHalf 0xFFFFFFFFFFFFFFFF#64 = 0x3FEFFFFFFFFFFFFF#64 ∧
  (∀ j : Half, value (u32ToF64 j) = j.toNat ∧ isFinite (u32ToF64 j) = true) ∧
  u32ToF64 0#32 = 0x0000000000000000#64 ∧
  (∀ v : Word, value (uOpen v) = (2 * (v.toNat / 2 ^ 12) + 1 : Nat) / 2 ^ 53 ∧
    isFinite (uOpen v) = true ∧ 1 / 2 ^ 53 ≤ value (uOpen v) ∧ value (uOpen v) ≤ 1 - 1 / 2 ^ 53) ∧
  uOpen 0#64 = 0x3CA0000000000000#64 ∧ uOpen 0xFFFFFFFFFFFFFFFF#64 = 0x3FEFFFFFFFFFFFFF#64

/-! ## ZigguratSampler -/

/-- R182: one iteration of `EXP`, for every `ROM`, `EXP64` and `LN64`: fast accept, tail at `i = 0`, slow
path, in this order; a rejected iteration keeps nothing but its two draws and the loop goes on. -/
def Obligations.ExpIterationAsWritten : Prop :=
  encode .exp = 0x30#8 ++ 0#64 ∧
  (∀ s : State, s.SEEDED = false → exec .exp s = .next (s.answered 4#4 0#64)) ∧
  (∀ (s : State) (v u x : Word) (i : Byte) (j : Half), s.SEEDED = true →
    v = s.rawWord 0 → u = uOpen (s.rawWord 1) → i = v.extractLsb' 0 8 → j = v.extractLsb' 32 32 →
    x = fmul (u32ToF64 j) (Config.we i) →
    exec .exp s = .next
      (if j.toNat < (Config.ke i).toNat then s.drew.answered 0#4 x
       else if i = 0#8 then s.drew.drew.answered 0#4 (fsub 0x401EC9D9297EBB83#64 (Config.ln64 u))
       else if flt (fadd (Config.fe i) (fmul u (fsub (Config.fe (i - 1#8)) (Config.fe i))))
           (Config.exp64 (fneg x)) = true
         then s.drew.drew.answered 0#4 x
       else { s.drew.drew with pos := .start }))

/-- One iteration of `NORM`, and one pass of its tail (42_ziggurat.md section 4), for every `ROM`, `EXP64` and
`LN64`. At `i = 0` without a fast accept the tail is entered with the sign bit kept; a pass of it draws two
words, the one for `xt` first, and on failure drops both and repeats. That entering the tail ends a step,
so that the first tail pass is the next one, is the model's choice (log entry 2). -/
def Obligations.NormIterationAndTailAsWritten : Prop :=
  encode .norm = 0x31#8 ++ 0#64 ∧
  (∀ s : State, s.SEEDED = false → exec .norm s = .next (s.answered 4#4 0#64)) ∧
  (∀ (s : State) (v u x : Word) (i : Byte) (j : Half) (sign : Bool), s.SEEDED = true → s.pos = .start →
    v = s.rawWord 0 → u = uOpen (s.rawWord 1) → i = v.extractLsb' 0 8 → j = v.extractLsb' 32 32 →
    sign = v.getLsbD 8 → x = fmul (u32ToF64 j) (Config.wn i) →
    exec .norm s = .next
      (if j.toNat < (Config.kn i).toNat then s.drew.answered 0#4 (if sign = true then fneg x else x)
       else if i = 0#8 then { s.drew with pos := .tail sign }
       else if flt (fadd (Config.fn i) (fmul u (fsub (Config.fn (i - 1#8)) (Config.fn i))))
           (Config.exp64 (fmul 0xBFE0000000000000#64 (fmul x x))) = true
         then s.drew.drew.answered 0#4 (if sign = true then fneg x else x)
       else { s.drew.drew with pos := .start })) ∧
  (∀ (s : State) (sign : Bool) (xt yt : Word), s.SEEDED = true → s.pos = .tail sign →
    xt = fdiv (fneg (Config.ln64 (uOpen (s.rawWord 0)))) Config.rn →
    yt = fneg (Config.ln64 (uOpen (s.rawWord 1))) →
    exec .norm s = .next
      (if fge (fadd yt yt) (fmul xt xt) = true
        then s.drew.drew.answered 0#4 (if sign = true then fneg (fadd Config.rn xt) else fadd Config.rn xt)
        else s.drew.drew))

/-- `EXP` ends from every state, for every `ROM`, `EXP64` and `LN64`. The spec proves no bound (42_ziggurat.md
section 5) and asks a claim of termination to prove it: a rejected iteration consumes exactly two words,
so the iteration words run through all words of one parity, and some of those have a zero low byte. -/
def Obligations.ExpNeverHangs : Prop :=
  ∀ s : State, s.Running .exp → ∃ k t, run k s = .next t ∧ t.BUSY = false

/-- The tail of `NORM` can hang (70_reset_and_hazards.md section 4): for some parameters it goes on drawing for
ever, `BUSY` stays 1 and no response is written. -/
def Obligations.NormTailCanHang : Prop :=
  ∃ P : ZigParams, ∀ (sign : Bool) (s : State) (k : Nat), s.BUSY = true →
    ((normTailPass P sign)^[k] s).BUSY = true ∧ ((normTailPass P sign)^[k] s).RSP = s.RSP ∧
      ((normTailPass P sign)^[k] s).S = advance^[2 * k] s.S

/-- With `KE[0] = 0`, the source's premise, an iteration with `i = 0` always ends in the tail
(20_memory.md section 7, marked derived there). -/
def Obligations.IndexZeroAlwaysTakesTheTail : Prop :=
  ∀ (P : ZigParams) (s : State), RomSourceEntries P.rom → (s.rawWord 0).extractLsb' 0 8 = 0#8 →
    expPass P s = s.drew.drew.answered 0#4 (fsub 0x401EC9D9297EBB83#64 (P.ln64 (uOpen (s.rawWord 1))))

/-- With finite non-negative widths the candidate is never negative and never a NaN, and with a sign it is
still no NaN (42_ziggurat.md sections 3 and 4, marked derived there). -/
def Obligations.CandidateNeverNegativeNorNaN : Prop :=
  ∀ (width : Byte → Word) (v : Word), (∀ i, finiteNonneg (width i) = true) →
    isNaN (candidate width v) = false ∧ (candidate width v).msb = false ∧
      ∀ sign, isNaN (sgn sign (candidate width v)) = false

/-- Under LN_NEG the exponential tail is finite and not below `RE` (42_ziggurat.md section 3 says greater,
marked derived there; the rounded difference can equal `RE`). -/
def Obligations.ExpTailNotBelowBaseStrip : Prop :=
  ∀ (ln64 : Word → Word) (v : Word), LnNeg ln64 →
    isFinite (fsub baseStripExp (ln64 (uOpen v))) = true ∧
      fge (fsub baseStripExp (ln64 (uOpen v))) baseStripExp = true

/-- The sentence of 42_ziggurat.md section 3 as it is written, marked derived there: under LN_NEG the tail is
greater than `RE`. Expected to fail: LN_NEG allows a logarithm too small to move the rounded difference. -/
def Obligations.ExpTailStrictlyAboveBaseStrip : Prop :=
  ∀ (ln64 : Word → Word) (v : Word), LnNeg ln64 →
    flt baseStripExp (fsub baseStripExp (ln64 (uOpen v))) = true

/-! ## State image -/

/-- R52, R53: `MemRead` is the little-endian number of the bytes, and `MemWrite` sets exactly its bytes. -/
def Obligations.MemoryPrimitivesAreLittleEndian : Prop :=
  (∀ (m : Memory) (a n : Nat), (n = 1 ∨ n = 8) → a + n ≤ 16 →
    memRead m a n = ∑ k ∈ Finset.range n, 256 ^ k * (byteAt m (a + k)).toNat) ∧
  (∀ (m : Memory) (a n v x : Nat), m.wf = true → (n = 1 ∨ n = 8) → a + n ≤ 16 → v < 256 ^ n →
    byteAt (memWrite m a n v) x =
      if a ≤ x ∧ x < a + n then BitVec.ofNat 8 (v / 256 ^ (x - a)) else byteAt m x)

/-- R211: `MARSHAL` writes all sixteen bytes of the image and answers 16; `S` and the residue stay. -/
def Obligations.MarshalWritesTheImage : Prop :=
  encode .marshal = 0x40#8 ++ 0#64 ∧
  (∀ s : State, s.SEEDED = false → exec .marshal s = .next (s.answered 4#4 0#64)) ∧
  (∀ s : State, s.SEEDED = true → s.IMG.wf = true → ∃ m : Memory,
    exec .marshal s = .next ({ s with IMG := m }.answered 0#4 16#64) ∧
    (∀ a, byteAt m a =
      if a < 8 then byteOf 0x00000001474E524B#64 a else if a < 16 then byteOf s.S (a - 8) else byteAt s.IMG a))

/-- R213: `UNMARSHAL` checks the length and the tag before it writes anything, loads the state word on
success, and on failure changes nothing. -/
def Obligations.UnmarshalValidatesBeforeLoading : Prop :=
  (∀ len : Word, encode (.unmarshal len) = 0x41#8 ++ len) ∧
  (∀ (len : Word) (s : State), len ≠ 16#64 → exec (.unmarshal len) s = .next (s.answered 2#4 0#64)) ∧
  (∀ s : State, (∃ a < 8, byteAt s.IMG a ≠ byteOf 0x00000001474E524B#64 a) →
    exec (.unmarshal 16#64) s = .next (s.answered 2#4 0#64)) ∧
  (∀ s : State, (∀ a < 8, byteAt s.IMG a = byteOf 0x00000001474E524B#64 a) → ∃ w : Word,
    exec (.unmarshal 16#64) s =
      .next ({ s with S := w, SEEDED := true, RDPOS := 0#4 }.answered 0#4 0#64) ∧
    ∀ k < 8, byteOf w k = byteAt s.IMG (8 + k))

/-- R216: `IMGRD a` returns the byte at the address and changes nothing. -/
def Obligations.ImgrdReturnsTheByte : Prop :=
  (∀ a : BitVec 4, encode (.imgrd a) = 0x42#8 ++ (0#60 ++ a)) ∧
  (∀ (a : BitVec 4) (s : State),
    exec (.imgrd a) s = .next (s.answered 0#4 ((byteAt s.IMG a.toNat).setWidth 64)))

/-- R217: `IMGWR a, b` sets one byte and no other, and does not touch the engine. -/
def Obligations.ImgwrSetsOneByte : Prop :=
  (∀ (a : BitVec 4) (b : Byte), encode (.imgwr a b) = 0x43#8 ++ (0#48 ++ (b ++ (0#4 ++ a)))) ∧
  (∀ (a : BitVec 4) (b : Byte) (s : State), s.IMG.wf = true → ∃ m : Memory,
    exec (.imgwr a b) s = .next ({ s with IMG := m }.answered 0#4 0#64) ∧
    ∀ x, byteAt m x = if x = a.toNat then b else byteAt s.IMG x)

/-- The round-trip law (43_statecodec.md section 3, marked derived there): the bytes `IMGRD` gives after
`MARSHAL` on A, written by `IMGWR` into any block B and loaded by `UNMARSHAL 16`, give B the state of A,
and so every raw word A has still to draw. -/
def Obligations.RoundTripLaw : Prop :=
  ∀ (A A' B : State), A.SEEDED = true → A.IMG.wf = true → B.IMG.wf = true → exec .marshal A = .next A' →
    ∃ B', runAll (unmarshalSequence (imageBytes A') 16#64) B = some B' ∧
      statusField B'.RSP = 0#4 ∧ B'.S = A.S ∧ B'.SEEDED = true ∧ B'.RDPOS = 0#4 ∧
      ∀ k, B'.rawWord k = A.rawWord k

/-- `LOADSTATE v` of 30_encoding.md section 7, issued command by command to an idle block in any state, loads
the word (43_statecodec.md section 3). The count of 35 steps is the model's choice (log entry 1): for each
of the seventeen commands an acceptance step and its one pass, and a step for the host that waits. -/
def Obligations.LoadstateLoadsAnyWord : Prop :=
  ∀ (v : Word) (s : State), s.BUSY = false → s.IMG.wf = true → s.events = issue (pseudoLoadstate v) →
    ∃ t, run 35 s = .next t ∧ t.events = [] ∧ t.BUSY = false ∧ statusField t.RSP = 0#4 ∧
      t.S = v ∧ t.SEEDED = true ∧ t.RDPOS = 0#4

/-- The assembler never emits an illegal command (30_encoding.md section 7): every command of an assembled text
is well-formed. -/
def Obligations.AssemblerEmitsLegalCommands : Prop :=
  ∀ (text : List Char) (is : List Instr), assemble text = .ok is → ∀ i ∈ is, i.wellFormed = true

/-! ## The whole machine -/

/-- Every step keeps the invariant: `IMG` in canonical form, R33's facts on `RDPOS`, a legal status, and
latches that fit the running command. -/
def Obligations.EveryStepKeepsInvariant : Prop :=
  ∀ s t : State, s.Invariant → step s = .next t → t.Invariant

/-- The state after reset meets the invariant. -/
def Obligations.ResetMeetsInvariant : Prop := State.reset.Invariant

/-- Determinism and isolation of the drawing commands but `RDBYTES` (40_bitengine.md section 2 and 10_state.md
section 5, marked derived there): two blocks that agree on `S`, `SEEDED` and the sequencer's position go
on alike, whatever else differs, and neither touches its image or residue. -/
def Obligations.SamplersSeeOnlyTheEngine : Prop :=
  ∀ (i : Instr) (s s' : State), drawingClass i = true → (∀ c, i ≠ .rdbytes c) →
    s.S = s'.S → s.SEEDED = s'.SEEDED → s.pos = s'.pos → s.BUSY = true → s'.BUSY = true →
    ∃ t t', exec i s = .next t ∧ exec i s' = .next t' ∧
      t.S = t'.S ∧ t.SEEDED = t'.SEEDED ∧ t.pos = t'.pos ∧ t.BUSY = t'.BUSY ∧
      (t.BUSY = false → t.RSP = t'.RSP) ∧
      t.IMG = s.IMG ∧ t.RDVAL = s.RDVAL ∧ t.RDPOS = s.RDPOS

/-- What R34 leaves unspecified is never read: two blocks that agree but for `S` while unseeded, `RDVAL` with
an empty residue, `RSP` before a command has ended and the latches while idle go on alike at every step,
so nothing rests on the values the model names for them at reset (log entries 3 and 4). -/
def Obligations.DeadValuesAreNeverRead : Prop :=
  ∀ s s' : State, s.Alike s' →
    (∀ t, step s = .next t → ∃ t', step s' = .next t' ∧ t.Alike t') ∧
    (∀ f, step s = .fault f → step s' = .fault f)

/-- The write column of the table of 10_state.md R32, over every step but an applied reset: `SEEDED` is never
cleared; `S`, the residue and the image change only under the commands the table lists for them. -/
def Obligations.OnlyListedCommandsWriteState : Prop :=
  ∀ s t : State, (∀ rest, s.events ≠ .reset :: rest) → step s = .next t →
    (s.SEEDED = true → t.SEEDED = true) ∧
    (t.SEEDED ≠ s.SEEDED → s.BUSY = true ∧
      ((∃ w, decode s.latch = .command (.seed w)) ∨ decode s.latch = .command (.unmarshal 16#64))) ∧
    (t.S ≠ s.S → s.BUSY = true ∧ ∃ i, decode s.latch = .command i ∧
      (drawingClass i = true ∨ (∃ w, i = .seed w) ∨ i = .unmarshal 16#64)) ∧
    (t.RDVAL ≠ s.RDVAL → s.BUSY = true ∧ ∃ c, decode s.latch = .command (.rdbytes c)) ∧
    (t.RDPOS ≠ s.RDPOS → s.BUSY = true ∧ ∃ i, decode s.latch = .command i ∧
      ((∃ c, i = .rdbytes c) ∨ (∃ w, i = .seed w) ∨ i = .unmarshal 16#64)) ∧
    (t.IMG ≠ s.IMG → s.BUSY = true ∧
      (decode s.latch = .command .marshal ∨ ∃ a b, decode s.latch = .command (.imgwr a b))) ∧
    (t.RSP ≠ s.RSP → s.BUSY = true ∧ t.BUSY = false)
end

