-- ==== Sys2Proof/Laws/Encoding.lean ====
section
/-! SUPPORT. Sys2Proof/Laws/Encoding.lean: the fields of an encoded command, and what each format's
decoder answers. -/

namespace Sys2Proof

/-- The opcode field of a word put together from an opcode and an operand field. -/
theorem opField_append (op : Byte) (arg : Word) : opField (op ++ arg) = op := by
  apply BitVec.eq_of_getLsbD_eq
  intro k hk
  have h := BitVec.getLsbD_append (x := op) (y := arg) (i := 64 + k)
  rw [if_neg (by omega), Nat.add_sub_cancel_left] at h
  simpa [opField, BitVec.getLsbD_extractLsb', hk] using h

/-- The operand field of a word put together from an opcode and an operand field. -/
theorem argField_append (op : Byte) (arg : Word) : argField (op ++ arg) = arg := by
  apply BitVec.eq_of_getLsbD_eq
  intro k hk
  have h := BitVec.getLsbD_append (x := op) (y := arg) (i := k)
  rw [if_pos hk] at h
  simpa [argField, BitVec.getLsbD_extractLsb', hk] using h

/-- A command word is its opcode field above its operand field (30_encoding.md R80). -/
theorem append_fields (cmd : Command) : (opField cmd ++ argField cmd : BitVec 72) = cmd := by
  unfold opField argField
  ext k hk
  simp only [BitVec.getElem_append, BitVec.getElem_extractLsb']
  split
  · simp [BitVec.getLsbD_eq_getElem hk]
  · have h : 64 + (k - 64) = k := by omega
    simp [h, BitVec.getLsbD_eq_getElem hk]

/-- The opcode of an encoded command. -/
theorem opField_encode (i : Instr) : opField (encode i) = i.opcode := opField_append _ _

/-- The operand field of an encoded command. -/
theorem argField_encode (i : Instr) : argField (encode i) = i.arg := argField_append _ _

end Sys2Proof
end

