-- ==== Sys2Proof/Laws/Memory.lean ====
section
/-! SUPPORT. Sys2Proof/Laws/Memory.lean: the laws of `IMG` as a canonical list: reading after a write of
one byte, and that every memory operation keeps the canonical form. -/

namespace Sys2Proof.Machine

/-- An address below every listed one reads as 0. -/
theorem byteAt_below {lo a : Nat} {m : Memory} (h : wfFrom lo m = true) (ha : a < lo) :
    byteAt m a = 0#8 := by
  induction m generalizing lo with
  | nil => rfl
  | cons c m ih =>
    obtain ⟨k, b⟩ := c
    simp only [wfFrom, Bool.and_eq_true, decide_eq_true_eq] at h
    obtain ⟨⟨⟨h1, _⟩, _⟩, h4⟩ := h
    have hk : k ≠ a := by omega
    simpa [byteAt, hk] using ih h4 (by omega)

/-- The canonical form from a higher address on is one from a lower address on. -/
theorem wfFrom_mono {lo lo' : Nat} {m : Memory} (h : wfFrom lo m = true) (hl : lo' ≤ lo) :
    wfFrom lo' m = true := by
  cases m with
  | nil => rfl
  | cons c m =>
    simp only [wfFrom, Bool.and_eq_true, decide_eq_true_eq] at h ⊢
    exact ⟨⟨⟨by omega, h.1.1.2⟩, h.1.2⟩, h.2⟩

/-- Reading after a write: the byte written at its address, every other byte as before. -/
theorem byteAt_setByte_from {lo : Nat} {m : Memory} (h : wfFrom lo m = true) (a : Nat) (b : Byte) (x : Nat) :
    byteAt (setByte m a b) x = if x = a then b else byteAt m x := by
  induction m generalizing lo with
  | nil =>
    by_cases hb : b = 0#8
    · simp [setByte, byteAt, hb]
    · by_cases hx : x = a
      · simp [setByte, byteAt, hb, hx]
      · simp [setByte, byteAt, hb, hx, Ne.symm hx]
  | cons c m ih =>
    obtain ⟨k, c⟩ := c
    simp only [wfFrom, Bool.and_eq_true, decide_eq_true_eq] at h
    obtain ⟨⟨⟨h1, h2⟩, h3⟩, h4⟩ := h
    have tail := ih h4
    by_cases hlt : a < k
    · have below : byteAt m a = 0#8 := byteAt_below h4 (by omega)
      have hka : k ≠ a := by omega
      by_cases hb : b = 0#8
      · by_cases hx : x = a
        · subst hx; simp [setByte, byteAt, hlt, hb, hka, below]
        · simp [setByte, hlt, hb, hx]
      · by_cases hx : x = a
        · subst hx; simp [setByte, byteAt, hlt, hb]
        · simp [setByte, byteAt, hlt, hb, hx, Ne.symm hx]
    · by_cases heq : a = k
      · subst heq
        have below : byteAt m a = 0#8 := byteAt_below h4 (by omega)
        by_cases hb : b = 0#8
        · by_cases hx : x = a
          · subst hx; simp [setByte, hb, below]
          · simp [setByte, byteAt, hb, hx, Ne.symm hx]
        · by_cases hx : x = a
          · subst hx; simp [setByte, byteAt, hb]
          · simp [setByte, byteAt, hb, hx, Ne.symm hx]
      · simp only [setByte, hlt, heq, if_false, byteAt]
        by_cases hk : k = x
        · subst hk; simp [Ne.symm heq]
        · simp [hk, tail]

/-- Writing one byte keeps the canonical form. -/
theorem wfFrom_setByte {lo : Nat} {m : Memory} (h : wfFrom lo m = true) {a : Nat} (hlo : lo ≤ a)
    (ha : a < 16) (b : Byte) : wfFrom lo (setByte m a b) = true := by
  induction m generalizing lo with
  | nil => by_cases hb : b = 0#8 <;> simp [setByte, wfFrom, hb, hlo, ha]
  | cons c m ih =>
    obtain ⟨k, c⟩ := c
    have whole := h
    simp only [wfFrom, Bool.and_eq_true, decide_eq_true_eq] at h
    obtain ⟨⟨⟨h1, h2⟩, h3⟩, h4⟩ := h
    by_cases hlt : a < k
    · by_cases hb : b = 0#8
      · simpa [setByte, hlt, hb] using whole
      · simp only [setByte, hlt, if_true, hb, if_false, wfFrom, Bool.and_eq_true, decide_eq_true_eq]
        exact ⟨⟨⟨hlo, ha⟩, hb⟩, ⟨⟨by omega, h2⟩, h3⟩, h4⟩
    · by_cases heq : a = k
      · subst heq
        by_cases hb : b = 0#8
        · simpa [setByte, hb] using wfFrom_mono h4 (by omega)
        · simp only [setByte, Nat.lt_irrefl, if_false, if_true, hb, wfFrom, Bool.and_eq_true,
            decide_eq_true_eq]
          exact ⟨⟨⟨h1, h2⟩, hb⟩, h4⟩
      · simp only [setByte, hlt, heq, if_false, wfFrom, Bool.and_eq_true, decide_eq_true_eq]
        exact ⟨⟨⟨h1, h2⟩, h3⟩, ih h4 (by omega)⟩

/-- Reading after a write in a canonical memory. -/
theorem byteAt_setByte {m : Memory} (h : m.wf = true) (a : Nat) (b : Byte) (x : Nat) :
    byteAt (setByte m a b) x = if x = a then b else byteAt m x := byteAt_setByte_from h a b x

/-- `setByte` inside `IMG` keeps the canonical form. -/
theorem setByte_wf {m : Memory} (h : m.wf = true) {a : Nat} (ha : a < 16) (b : Byte) :
    Memory.wf (setByte m a b) = true := wfFrom_setByte h (Nat.zero_le a) ha b

/-- `memWrite` inside `IMG` keeps the canonical form. -/
theorem memWrite_wf {m : Memory} (h : m.wf = true) {a n : Nat} (ha : a + n ≤ 16) (v : Nat) :
    Memory.wf (memWrite m a n v) = true := by
  induction n generalizing m a v with
  | zero => exact h
  | succ n ih => exact ih (setByte_wf h (by omega) _) (by omega) _

/-- `writeImage` keeps the canonical form. -/
theorem writeImage_wf {m : Memory} (h : m.wf = true) (w : Word) :
    Memory.wf (writeImage m w) = true := memWrite_wf (memWrite_wf h (by omega) _) (by omega) _

/-- The memory after reset is in canonical form. -/
theorem reset_wf : State.reset.IMG.wf = true := rfl

/-- The memory after reset reads as 0 everywhere (10_state.md R34). -/
theorem byteAt_reset (a : Nat) : byteAt State.reset.IMG a = 0#8 := rfl

end Sys2Proof.Machine
end

