-- ==== Sys2Proof/Laws/State.lean ====
section
/-! SUPPORT. Sys2Proof/Laws/State.lean: one lemma per field per named update of the state, each true by
rfl, so that no proof unfolds a record update. -/

namespace Sys2Proof.Machine

/-! ## `State.finish` -/

@[simp] theorem State.finish_S (s : State) (st : Status) (v : Word) : (s.finish st v).S = s.S := rfl
@[simp] theorem State.finish_SEEDED (s : State) (st : Status) (v : Word) : (s.finish st v).SEEDED = s.SEEDED := rfl
@[simp] theorem State.finish_RDVAL (s : State) (st : Status) (v : Word) : (s.finish st v).RDVAL = s.RDVAL := rfl
@[simp] theorem State.finish_RDPOS (s : State) (st : Status) (v : Word) : (s.finish st v).RDPOS = s.RDPOS := rfl
@[simp] theorem State.finish_BUSY (s : State) (st : Status) (v : Word) : (s.finish st v).BUSY = false := rfl
@[simp] theorem State.finish_RSP (s : State) (st : Status) (v : Word) : (s.finish st v).RSP = mkResponse st v := rfl
@[simp] theorem State.finish_IMG (s : State) (st : Status) (v : Word) : (s.finish st v).IMG = s.IMG := rfl
@[simp] theorem State.finish_latch (s : State) (st : Status) (v : Word) : (s.finish st v).latch = s.latch := rfl
@[simp] theorem State.finish_pos (s : State) (st : Status) (v : Word) : (s.finish st v).pos = s.pos := rfl
@[simp] theorem State.finish_ended (s : State) (st : Status) (v : Word) : (s.finish st v).ended = true := rfl
@[simp] theorem State.finish_events (s : State) (st : Status) (v : Word) : (s.finish st v).events = s.events := rfl

/-! ## `State.afterDraw` -/

@[simp] theorem State.afterDraw_S (s : State) : s.afterDraw.S = advance s.S := rfl
@[simp] theorem State.afterDraw_SEEDED (s : State) : s.afterDraw.SEEDED = s.SEEDED := rfl
@[simp] theorem State.afterDraw_RDVAL (s : State) : s.afterDraw.RDVAL = s.RDVAL := rfl
@[simp] theorem State.afterDraw_RDPOS (s : State) : s.afterDraw.RDPOS = s.RDPOS := rfl
@[simp] theorem State.afterDraw_BUSY (s : State) : s.afterDraw.BUSY = s.BUSY := rfl
@[simp] theorem State.afterDraw_RSP (s : State) : s.afterDraw.RSP = s.RSP := rfl
@[simp] theorem State.afterDraw_IMG (s : State) : s.afterDraw.IMG = s.IMG := rfl
@[simp] theorem State.afterDraw_latch (s : State) : s.afterDraw.latch = s.latch := rfl
@[simp] theorem State.afterDraw_pos (s : State) : s.afterDraw.pos = s.pos := rfl
@[simp] theorem State.afterDraw_ended (s : State) : s.afterDraw.ended = s.ended := rfl
@[simp] theorem State.afterDraw_events (s : State) : s.afterDraw.events = s.events := rfl

/-! ## `State.load` -/

@[simp] theorem State.load_S (s : State) (w : Word) : (s.load w).S = w := rfl
@[simp] theorem State.load_SEEDED (s : State) (w : Word) : (s.load w).SEEDED = true := rfl
@[simp] theorem State.load_RDVAL (s : State) (w : Word) : (s.load w).RDVAL = s.RDVAL := rfl
@[simp] theorem State.load_RDPOS (s : State) (w : Word) : (s.load w).RDPOS = 0#4 := rfl
@[simp] theorem State.load_BUSY (s : State) (w : Word) : (s.load w).BUSY = s.BUSY := rfl
@[simp] theorem State.load_RSP (s : State) (w : Word) : (s.load w).RSP = s.RSP := rfl
@[simp] theorem State.load_IMG (s : State) (w : Word) : (s.load w).IMG = s.IMG := rfl
@[simp] theorem State.load_latch (s : State) (w : Word) : (s.load w).latch = s.latch := rfl
@[simp] theorem State.load_pos (s : State) (w : Word) : (s.load w).pos = s.pos := rfl
@[simp] theorem State.load_ended (s : State) (w : Word) : (s.load w).ended = s.ended := rfl
@[simp] theorem State.load_events (s : State) (w : Word) : (s.load w).events = s.events := rfl

/-! ## `State.accept` -/

@[simp] theorem State.accept_S (s : State) (w : Command) (es : List Event) : (s.accept w es).S = s.S := rfl
@[simp] theorem State.accept_SEEDED (s : State) (w : Command) (es : List Event) : (s.accept w es).SEEDED = s.SEEDED := rfl
@[simp] theorem State.accept_RDVAL (s : State) (w : Command) (es : List Event) : (s.accept w es).RDVAL = s.RDVAL := rfl
@[simp] theorem State.accept_RDPOS (s : State) (w : Command) (es : List Event) : (s.accept w es).RDPOS = s.RDPOS := rfl
@[simp] theorem State.accept_BUSY (s : State) (w : Command) (es : List Event) : (s.accept w es).BUSY = true := rfl
@[simp] theorem State.accept_RSP (s : State) (w : Command) (es : List Event) : (s.accept w es).RSP = s.RSP := rfl
@[simp] theorem State.accept_IMG (s : State) (w : Command) (es : List Event) : (s.accept w es).IMG = s.IMG := rfl
@[simp] theorem State.accept_latch (s : State) (w : Command) (es : List Event) : (s.accept w es).latch = w := rfl
@[simp] theorem State.accept_pos (s : State) (w : Command) (es : List Event) : (s.accept w es).pos = .start := rfl
@[simp] theorem State.accept_ended (s : State) (w : Command) (es : List Event) : (s.accept w es).ended = s.ended := rfl
@[simp] theorem State.accept_events (s : State) (w : Command) (es : List Event) : (s.accept w es).events = es := rfl

/-! ## `State.shiftByte` -/

@[simp] theorem State.shiftByte_S (s : State) : s.shiftByte.S = s.S := rfl
@[simp] theorem State.shiftByte_SEEDED (s : State) : s.shiftByte.SEEDED = s.SEEDED := rfl
@[simp] theorem State.shiftByte_RDVAL (s : State) : s.shiftByte.RDVAL = s.RDVAL >>> 8 := rfl
@[simp] theorem State.shiftByte_RDPOS (s : State) : s.shiftByte.RDPOS = s.RDPOS - 1#4 := rfl
@[simp] theorem State.shiftByte_BUSY (s : State) : s.shiftByte.BUSY = s.BUSY := rfl
@[simp] theorem State.shiftByte_RSP (s : State) : s.shiftByte.RSP = s.RSP := rfl
@[simp] theorem State.shiftByte_IMG (s : State) : s.shiftByte.IMG = s.IMG := rfl
@[simp] theorem State.shiftByte_latch (s : State) : s.shiftByte.latch = s.latch := rfl
@[simp] theorem State.shiftByte_pos (s : State) : s.shiftByte.pos = s.pos := rfl
@[simp] theorem State.shiftByte_ended (s : State) : s.shiftByte.ended = s.ended := rfl
@[simp] theorem State.shiftByte_events (s : State) : s.shiftByte.events = s.events := rfl

/-! ## `State.retry` -/

@[simp] theorem State.retry_S (s : State) : s.retry.S = s.S := rfl
@[simp] theorem State.retry_SEEDED (s : State) : s.retry.SEEDED = s.SEEDED := rfl
@[simp] theorem State.retry_RDVAL (s : State) : s.retry.RDVAL = s.RDVAL := rfl
@[simp] theorem State.retry_RDPOS (s : State) : s.retry.RDPOS = s.RDPOS := rfl
@[simp] theorem State.retry_BUSY (s : State) : s.retry.BUSY = s.BUSY := rfl
@[simp] theorem State.retry_RSP (s : State) : s.retry.RSP = s.RSP := rfl
@[simp] theorem State.retry_IMG (s : State) : s.retry.IMG = s.IMG := rfl
@[simp] theorem State.retry_latch (s : State) : s.retry.latch = s.latch := rfl
@[simp] theorem State.retry_pos (s : State) : s.retry.pos = .start := rfl
@[simp] theorem State.retry_ended (s : State) : s.retry.ended = s.ended := rfl
@[simp] theorem State.retry_events (s : State) : s.retry.events = s.events := rfl

/-! ## `afterReset` -/

@[simp] theorem afterReset_S (es : List Event) : (afterReset es).S = 0#64 := rfl
@[simp] theorem afterReset_SEEDED (es : List Event) : (afterReset es).SEEDED = false := rfl
@[simp] theorem afterReset_RDVAL (es : List Event) : (afterReset es).RDVAL = 0#64 := rfl
@[simp] theorem afterReset_RDPOS (es : List Event) : (afterReset es).RDPOS = 0#4 := rfl
@[simp] theorem afterReset_BUSY (es : List Event) : (afterReset es).BUSY = false := rfl
@[simp] theorem afterReset_RSP (es : List Event) : (afterReset es).RSP = 0#68 := rfl
@[simp] theorem afterReset_IMG (es : List Event) : (afterReset es).IMG = [] := rfl
@[simp] theorem afterReset_latch (es : List Event) : (afterReset es).latch = 0#72 := rfl
@[simp] theorem afterReset_pos (es : List Event) : (afterReset es).pos = .start := rfl
@[simp] theorem afterReset_ended (es : List Event) : (afterReset es).ended = false := rfl
@[simp] theorem afterReset_events (es : List Event) : (afterReset es).events = es := rfl

end Sys2Proof.Machine
end

