-- ==== Sys2Proof/Laws/Ops.lean ====
section
/-! SUPPORT. Sys2Proof/Laws/Ops.lean: what each shared operation can do, said once. -/

namespace Sys2Proof.Machine

/-! ## Responses -/

/-- The status of an assembled response (30_encoding.md R85). -/
@[simp] theorem statusField_mkResponse (st : Status) (v : Word) : statusField (mkResponse st v) = st.code := by
  apply BitVec.eq_of_getLsbD_eq
  intro k hk
  have h := BitVec.getLsbD_append (x := st.code) (y := v) (i := 64 + k)
  rw [if_neg (by omega), Nat.add_sub_cancel_left] at h
  simpa [statusField, mkResponse, BitVec.getLsbD_extractLsb', hk] using h

/-- The data of an assembled response (30_encoding.md R85). -/
@[simp] theorem dataField_mkResponse (st : Status) (v : Word) : dataField (mkResponse st v) = v := by
  apply BitVec.eq_of_getLsbD_eq
  intro k hk
  have h := BitVec.getLsbD_append (x := st.code) (y := v) (i := k)
  rw [if_pos hk] at h
  simpa [dataField, mkResponse, BitVec.getLsbD_extractLsb', hk] using h

/-- Two responses with one status have one data. -/
theorem mkResponse_inj {st st' : Status} {v v' : Word} (h : mkResponse st v = mkResponse st' v') :
    st = st' ∧ v = v' := by
  have hs : st.code = st'.code := by simpa using congrArg statusField h
  have hv : v = v' := by simpa using congrArg dataField h
  exact ⟨by cases st <;> cases st' <;> first | rfl | exact absurd hs (by decide), hv⟩

/-! ## `NotSeeded` -/

theorem whenSeeded_of_seeded {s : State} (h : s.SEEDED = true) (body : State → Result) :
    whenSeeded s body = body s := by simp [whenSeeded, h]

theorem whenSeeded_of_unseeded {s : State} (h : s.SEEDED = false) (body : State → Result) :
    whenSeeded s body = .next (s.finish .notSeeded 0#64) := by simp [whenSeeded, h, raise]

/-- A guarded body that always answers a next state makes a guarded command that does. -/
theorem whenSeeded_next {s : State} {body : State → Result} (h : ∃ t, body s = .next t) :
    ∃ t, whenSeeded s body = .next t := by
  cases hs : s.SEEDED with
  | false => exact ⟨_, whenSeeded_of_unseeded hs body⟩
  | true => rw [whenSeeded_of_seeded hs]; exact h

/-! ## The residue and the bounded draw -/

/-- `refill` either leaves a state with unread bytes alone or makes one draw (40_bitengine.md R119). -/
theorem State.refill_cases (s : State) :
    (s.RDPOS ≠ 0#4 ∧ s.refill = s) ∨
    (s.RDPOS = 0#4 ∧ s.refill = { s.afterDraw with RDVAL := s.drawn, RDPOS := 8#4 }) := by
  by_cases h : s.RDPOS = 0#4
  · exact .inr ⟨h, by simp [State.refill, h]⟩
  · exact .inl ⟨h, by simp [State.refill, h]⟩

/-- A byte taken out changes `S`, `RDVAL` and `RDPOS` only. -/
theorem State.refill_shiftByte_frame (s : State) :
    s.refill.shiftByte =
      { s with S := s.refill.S, RDVAL := s.refill.shiftByte.RDVAL, RDPOS := s.refill.shiftByte.RDPOS } := by
  rcases s.refill_cases with ⟨_, h⟩ | ⟨_, h⟩ <;> rw [h] <;> rfl

/-- The loop of `RDBYTES` changes `S`, `RDVAL` and `RDPOS` only. -/
theorem State.afterBytes_frame (c : Nat) (s : State) :
    s.afterBytes c =
      { s with S := (s.afterBytes c).S, RDVAL := (s.afterBytes c).RDVAL, RDPOS := (s.afterBytes c).RDPOS } := by
  induction c generalizing s with
  | zero => rfl
  | succ c ih =>
    rw [State.afterBytes, ih, State.refill_shiftByte_frame]

/-- What one pass of a 32-bit bounded draw can do (41_bounded.md R141). -/
theorem lemire32_cases (n : Half) (s : State) :
    (n = 1#32 ∧ lemire32 n s = .next (s.finish .ok 0#64)) ∨
    (n ≠ 1#32 ∧ ∃ r, verdict32 n s = .accept r ∧
      lemire32 n s = .next (s.afterDraw.finish .ok (zext64 r))) ∨
    (n ≠ 1#32 ∧ ∃ thr, verdict32 n s = .reject thr ∧
      lemire32 n s = .next { s.afterDraw with pos := .redraw32 thr }) := by
  by_cases h : n = 1#32
  · exact .inl ⟨h, by simp [lemire32, h, done]⟩
  · cases hv : verdict32 n s with
    | accept r => exact .inr (.inl ⟨h, r, rfl, by simp [lemire32, h, hv, done]⟩)
    | reject thr => exact .inr (.inr ⟨h, thr, rfl, by simp [lemire32, h, hv]⟩)

/-- What one pass of a 64-bit bounded draw can do (41_bounded.md R141). -/
theorem lemire64_cases (n : Word) (s : State) :
    (n = 1#64 ∧ lemire64 n s = .next (s.finish .ok 0#64)) ∨
    (n ≠ 1#64 ∧ ∃ r, verdict64 n s = .accept r ∧ lemire64 n s = .next (s.afterDraw.finish .ok r)) ∨
    (n ≠ 1#64 ∧ ∃ thr, verdict64 n s = .reject thr ∧
      lemire64 n s = .next { s.afterDraw with pos := .redraw64 thr }) := by
  by_cases h : n = 1#64
  · exact .inl ⟨h, by simp [lemire64, h, done]⟩
  · cases hv : verdict64 n s with
    | accept r => exact .inr (.inl ⟨h, r, rfl, by simp [lemire64, h, hv, done]⟩)
    | reject thr => exact .inr (.inr ⟨h, thr, rfl, by simp [lemire64, h, hv]⟩)

/-! ## The Ziggurat passes -/

/-- What one iteration of `EXP` can do (42_ziggurat.md R182). -/
theorem expPass_cases (P : ZigParams) (s : State) :
    (∃ x, expPass P s = s.afterDraw.finish .ok x) ∨
    (∃ x, expPass P s = s.afterDraw.afterDraw.finish .ok x) ∨
    expPass P s = s.afterDraw.afterDraw.retry := by
  unfold expPass
  dsimp only
  split
  · exact .inl ⟨_, rfl⟩
  · split
    · exact .inr (.inl ⟨_, rfl⟩)
    · split
      · exact .inr (.inl ⟨_, rfl⟩)
      · exact .inr (.inr rfl)

/-- What one pass of `NORM` can do (42_ziggurat.md R190, R193). -/
theorem normPass_cases (P : ZigParams) (s : State) :
    (∃ x, normPass P s = s.afterDraw.finish .ok x) ∨
    (∃ sign, normPass P s = { s.afterDraw with pos := .tail sign }) ∨
    (∃ x, normPass P s = s.afterDraw.afterDraw.finish .ok x) ∨
    normPass P s = s.afterDraw.afterDraw.retry ∨
    (∃ sign, s.pos = .tail sign ∧ normPass P s = s.afterDraw.afterDraw) := by
  have iteration : normPass P s = normIteration P s →
      (∃ x, normPass P s = s.afterDraw.finish .ok x) ∨
      (∃ sign, normPass P s = { s.afterDraw with pos := .tail sign }) ∨
      (∃ x, normPass P s = s.afterDraw.afterDraw.finish .ok x) ∨
      normPass P s = s.afterDraw.afterDraw.retry := by
    intro h
    rw [h]
    unfold normIteration
    dsimp only
    split
    · exact .inl ⟨_, rfl⟩
    · split
      · exact .inr (.inl ⟨_, rfl⟩)
      · split
        · exact .inr (.inr (.inl ⟨_, rfl⟩))
        · exact .inr (.inr (.inr rfl))
  cases hp : s.pos with
  | tail sign =>
    have h : normPass P s = normTailPass P sign s := by simp [normPass, hp]
    rw [h]
    unfold normTailPass
    dsimp only
    split
    · exact .inr (.inr (.inl ⟨_, rfl⟩))
    · exact .inr (.inr (.inr (.inr ⟨sign, rfl, rfl⟩)))
  | start =>
    rcases iteration (by simp [normPass, hp]) with h | h | h | h
    exacts [.inl h, .inr (.inl h), .inr (.inr (.inl h)), .inr (.inr (.inr (.inl h)))]
  | redraw32 thr =>
    rcases iteration (by simp [normPass, hp]) with h | h | h | h
    exacts [.inl h, .inr (.inl h), .inr (.inr (.inl h)), .inr (.inr (.inr (.inl h)))]
  | redraw64 thr =>
    rcases iteration (by simp [normPass, hp]) with h | h | h | h
    exacts [.inl h, .inr (.inl h), .inr (.inr (.inl h)), .inr (.inr (.inr (.inl h)))]

/-! ## The commands: each answers a next state -/

theorem lemire32_next (n : Half) (s : State) : ∃ t, lemire32 n s = .next t := by
  rcases lemire32_cases n s with ⟨_, h⟩ | ⟨_, _, _, h⟩ | ⟨_, _, _, h⟩ <;> exact ⟨_, h⟩

theorem lemire64_next (n : Word) (s : State) : ∃ t, lemire64 n s = .next t := by
  rcases lemire64_cases n s with ⟨_, h⟩ | ⟨_, _, _, h⟩ | ⟨_, _, _, h⟩ <;> exact ⟨_, h⟩

/-- No command stops the machine: every pass answers a next state. -/
theorem exec_next (i : Instr) (s : State) : ∃ t, exec i s = .next t := by
  cases i with
  | seed w => exact ⟨_, rfl⟩
  | next64 => simp only [exec, execNext64]; exact whenSeeded_next ⟨_, rfl⟩
  | next32 => simp only [exec, execNext32]; exact whenSeeded_next ⟨_, rfl⟩
  | unif => simp only [exec, execUnif]; exact whenSeeded_next ⟨_, rfl⟩
  | rdbytes c =>
    simp only [exec, execRdbytes]
    split
    exacts [⟨_, rfl⟩, whenSeeded_next ⟨_, rfl⟩]
  | bound32 n =>
    simp only [exec, execBound32]
    apply whenSeeded_next
    split
    exacts [⟨_, rfl⟩, lemire32_next n s]
  | bound64 n =>
    simp only [exec, execBound64]
    apply whenSeeded_next
    split
    exacts [⟨_, rfl⟩, lemire64_next n s]
  | int31n n =>
    simp only [exec, execInt31n]
    apply whenSeeded_next
    split
    exacts [⟨_, rfl⟩, lemire32_next n s]
  | int63n n =>
    simp only [exec, execInt63n]
    apply whenSeeded_next
    split
    exacts [⟨_, rfl⟩, lemire64_next n s]
  | exp => simp only [exec, execExp]; exact whenSeeded_next ⟨_, rfl⟩
  | norm => simp only [exec, execNorm]; exact whenSeeded_next ⟨_, rfl⟩
  | marshal => simp only [exec, execMarshal]; exact whenSeeded_next ⟨_, rfl⟩
  | unmarshal len =>
    simp only [exec, execUnmarshal]
    split
    · exact ⟨_, rfl⟩
    · split
      exacts [⟨_, rfl⟩, ⟨_, rfl⟩]
  | imgrd a => exact ⟨_, rfl⟩
  | imgwr a b => exact ⟨_, rfl⟩

/-- The sequencer always answers a next state. -/
theorem sequencerStep_next (s : State) : ∃ t, sequencerStep s = .next t := by
  unfold sequencerStep
  split
  · exact exec_next _ s
  · exact ⟨_, rfl⟩

/-! ## The port: what a step can do -/

theorem State.readRsp_idle {s : State} (h : s.BUSY = false) : s.readRsp = .ok s.RSP := by
  simp [State.readRsp, h]

theorem State.readRsp_busy {s : State} (h : s.BUSY = true) : s.readRsp = .error .rspReadWhileBusy := by
  simp [State.readRsp, h]

/-- A step that answers a next state is one of: a reset, a host event on its own, an acceptance, a pass
of the sequencer with or without a read of `BUSY`, or an idle step. -/
theorem step_cases {s t : State} (h : step s = .next t) :
    (∃ rest, s.events = .reset :: rest ∧ t = afterReset rest) ∨
    (∃ e rest, s.events = e :: rest ∧ s.BUSY = false ∧ t = { s with events := rest }) ∨
    (∃ w rest, s.events = .command w :: rest ∧ s.BUSY = false ∧ t = s.accept w rest) ∨
    (s.BUSY = true ∧ (∀ e ∈ s.events.head?, e.isHeld = true) ∧ sequencerStep s = .next t) ∨
    (∃ rest, s.events = .readBusy :: rest ∧ s.BUSY = true ∧
      sequencerStep { s with events := rest } = .next t) ∨
    (s.events = [] ∧ s.BUSY = false ∧ t = s) := by
  unfold step portStep at h
  cases he : s.events with
  | nil =>
    rw [he] at h
    cases hb : s.BUSY with
    | true => simp only [hb, if_true] at h; exact .inr (.inr (.inr (.inl ⟨rfl, by simp, h⟩)))
    | false =>
      simp only [hb, Bool.false_eq_true, if_false, Host.Outcome.next.injEq] at h
      exact .inr (.inr (.inr (.inr (.inr ⟨rfl, rfl, h.symm⟩))))
  | cons e rest =>
    rw [he] at h
    cases e with
    | reset =>
      simp only [Host.Outcome.next.injEq] at h
      exact .inl ⟨rest, rfl, h.symm⟩
    | command w =>
      cases hb : s.BUSY with
      | true => simp only [hb, if_true] at h; exact .inr (.inr (.inr (.inl ⟨rfl, by simp [Event.isHeld], h⟩)))
      | false =>
        simp only [hb, Bool.false_eq_true, if_false, Host.Outcome.next.injEq] at h
        exact .inr (.inr (.inl ⟨w, rest, rfl, rfl, h.symm⟩))
    | waitIdle =>
      cases hb : s.BUSY with
      | true => simp only [hb, if_true] at h; exact .inr (.inr (.inr (.inl ⟨rfl, by simp [Event.isHeld], h⟩)))
      | false =>
        simp only [hb, Bool.false_eq_true, if_false, Host.Outcome.next.injEq] at h
        exact .inr (.inl ⟨_, rest, rfl, rfl, h.symm⟩)
    | readBusy =>
      cases hb : s.BUSY with
      | true =>
        simp only [hb, if_true] at h
        exact .inr (.inr (.inr (.inr (.inl ⟨rest, rfl, rfl, h⟩))))
      | false =>
        simp only [hb, Bool.false_eq_true, if_false, Host.Outcome.next.injEq] at h
        exact .inr (.inl ⟨_, rest, rfl, rfl, h.symm⟩)
    | readRsp =>
      cases hb : s.BUSY with
      | true => simp [State.readRsp_busy hb] at h
      | false =>
        simp only [State.readRsp_idle hb, hb, Host.Outcome.next.injEq] at h
        exact .inr (.inl ⟨_, rest, rfl, rfl, h.symm⟩)

end Sys2Proof.Machine
end

