-- ==== Sys2Proof/Laws/PerInstr.lean ====
section
/-! SUPPORT. Sys2Proof/Laws/PerInstr.lean: the family `Fields`, one lemma per command: its word carries
its opcode in bits 71 to 64 and its operand field in bits 63 to 0 (30_encoding.md R80, R83). -/

namespace Sys2Proof.Laws.Fields

/-- The word of a command has the command's opcode and operand field, and nothing else. -/
def Statement (i : Instr) : Prop :=
  opField (encode i) = i.opcode ∧ argField (encode i) = i.arg ∧
    encode i = opField (encode i) ++ argField (encode i)

theorem of_encode (i : Instr) : Statement i :=
  ⟨opField_encode i, argField_encode i, (append_fields (encode i)).symm⟩

theorem seed (w : Word) : Statement (.seed w) := of_encode _
theorem next64 : Statement .next64 := of_encode _
theorem next32 : Statement .next32 := of_encode _
theorem unif : Statement .unif := of_encode _
theorem rdbytes (c : BitVec 4) : Statement (.rdbytes c) := of_encode _
theorem bound32 (n : Half) : Statement (.bound32 n) := of_encode _
theorem bound64 (n : Word) : Statement (.bound64 n) := of_encode _
theorem int31n (n : Half) : Statement (.int31n n) := of_encode _
theorem int63n (n : Word) : Statement (.int63n n) := of_encode _
theorem exp : Statement .exp := of_encode _
theorem norm : Statement .norm := of_encode _
theorem marshal : Statement .marshal := of_encode _
theorem unmarshal (len : Word) : Statement (.unmarshal len) := of_encode _
theorem imgrd (a : BitVec 4) : Statement (.imgrd a) := of_encode _
theorem imgwr (a : BitVec 4) (b : Byte) : Statement (.imgwr a b) := of_encode _

end Sys2Proof.Laws.Fields
end

