-- ==== Sys2Proof/Tests/Slice0.lean ====
section
/-! SUPPORT. Sys2Proof/Tests/Slice0.lean: the model's own tests. Every expected value stands in the
spec: the worked examples of the rules and the vectors of spec/95_test_vectors.md. -/

namespace Sys2Proof.Tests

open Sys2Proof.Machine

/-! ## Helpers -/

/-- A running block whose engine holds `w`. -/
def seededAt (w : Word) : State := { State.reset with S := w, SEEDED := true, BUSY := true }

/-- One field of the next state, where there is one. -/
def look {α : Type} (r : Result) (f : State → α) : Option α :=
  match r with
  | .next t => some (f t)
  | .fault _ => none
  | .refused _ => none

/-- Status, data and `S` after a pass. -/
def view (r : Result) : Option (BitVec 4 × Word × Word) :=
  look r fun t => (statusField t.RSP, dataField t.RSP, t.S)

/-- Sixteen bytes as a memory. -/
def imageOf (bytes : List Byte) : Memory :=
  ((bytes.mapIdx fun k b => (k, b)).filter fun c => c.2 != 0#8)

/-- The test tables T of 95 section 5.1, with the given functions. -/
def tablesT (e l : Word → Word) : ZigParams :=
  { rom :=
      { ke := fun i => if i = 0#8 then 0#64 else 0x80000000#64
        we := fun _ => 0x3DF0000000000000#64
        fe := fun i => ofScaled (256 - i.toNat) (-8)
        kn := fun i => if i = 0#8 then 0#64 else 0x80000000#64
        wn := fun _ => 0x3DF0000000000000#64
        fn := fun i => ofScaled (256 - i.toNat) (-8)
        rn := 0x400D3BB48209AD33#64 }
    exp64 := e
    ln64 := l }

/-! ## Well-formedness -/

theorem test_rdbytes_nine_ill_formed : Instr.wellFormed (.rdbytes 9#4) = false := by decide
theorem test_rdbytes_eight_well_formed : Instr.wellFormed (.rdbytes 8#4) = true := by decide

/-! ## Decoding: words written out from 30_encoding.md R83 and 95 section 7.1 -/

theorem test_decode_seed : decode 0x10FFFFFFFFFFFFFFFF#72 = .command (.seed 0xFFFFFFFFFFFFFFFF#64) := by decide
theorem test_decode_next64 : decode 0x110000000000000000#72 = .command .next64 := by decide
theorem test_decode_next32 : decode 0x120000000000000000#72 = .command .next32 := by decide
theorem test_decode_unif : decode 0x130000000000000000#72 = .command .unif := by decide
theorem test_decode_rdbytes : decode 0x140000000000000008#72 = .command (.rdbytes 8#4) := by decide
theorem test_decode_bound32 : decode 0x2000000000FFFFFFFF#72 = .command (.bound32 0xFFFFFFFF#32) := by decide
theorem test_decode_bound64 : decode 0x218000000000000001#72 = .command (.bound64 0x8000000000000001#64) := by decide
theorem test_decode_int31n : decode 0x220000000080000000#72 = .command (.int31n 0x80000000#32) := by decide
theorem test_decode_int63n : decode 0x237FFFFFFFFFFFFFFF#72 = .command (.int63n 0x7FFFFFFFFFFFFFFF#64) := by decide
theorem test_decode_exp : decode 0x300000000000000000#72 = .command .exp := by decide
theorem test_decode_norm : decode 0x310000000000000000#72 = .command .norm := by decide
theorem test_decode_marshal : decode 0x400000000000000000#72 = .command .marshal := by decide
theorem test_decode_unmarshal : decode 0x410000000000000010#72 = .command (.unmarshal 16#64) := by decide
theorem test_decode_imgrd : decode 0x42000000000000000F#72 = .command (.imgrd 15#4) := by decide
theorem test_decode_imgwr : decode 0x430000000000002A08#72 = .command (.imgwr 8#4 0x2A#8) := by decide

theorem test_illegal_zero_word : decode 0x000000000000000000#72 = .illegal .unknownOpcode := by decide
theorem test_illegal_opcodes :
    [0x150000000000000000#72, 0x240000000000000000#72, 0x320000000000000000#72, 0x440000000000000000#72,
      0xFF0000000000000000#72].map decode = List.replicate 5 (.illegal .unknownOpcode) := by decide
theorem test_illegal_must_be_zero :
    [0x110000000000000001#72, 0x118000000000000000#72, 0x140000000000000018#72, 0x20000000010000000A#72,
      0x220000000100000005#72, 0x420000000000000010#72, 0x43000000000000FF1F#72,
      0x430000000000010000#72].map decode = List.replicate 8 (.illegal .mustBeZero) := by decide
theorem test_illegal_counts :
    [0x140000000000000009#72, 0x14000000000000000F#72].map decode
      = List.replicate 2 (.illegal .countAboveEight) := by decide

theorem test_encode_imgwr : encode (.imgwr 15#4 0xFF#8) = 0x43000000000000FF0F#72 := by decide
theorem test_decodeTableWord : decodeTableWord 72 0x200000000000000000 = some (.bound32 0#32) := by decide

/-! ## BitEngine (95 section 2) -/

theorem test_mix_steps : mix 0x9E3779B97F4A7C15#64 = 0xE220A8397B1DCDAF#64 := by decide
theorem test_mix_max_seed : mix (advance 0xFFFFFFFFFFFFFFFF#64) = 0xE4D971771B652C20#64 := by decide
theorem test_seed : view (exec (.seed 1#64) State.reset) = some (0#4, 0#64, 1#64) := by decide
theorem test_seed_drops_residue :
    look (exec (.seed 1#64) { seededAt 0#64 with RDPOS := 3#4 }) (fun t => t.RDPOS) = some 0#4 := by decide
theorem test_next64 : view (exec .next64 (seededAt 0x9E3779B97F4A7C15#64))
    = some (0#4, 0x6E789E6AA1B965F4#64, 0x3C6EF372FE94F82A#64) := by decide
theorem test_next64_unseeded : view (exec .next64 State.reset) = some (4#4, 0#64, 0#64) := by decide
theorem test_next32 : view (exec .next32 (seededAt 0#64))
    = some (0#4, 0x7B1DCDAF#64, 0x9E3779B97F4A7C15#64) := by decide
theorem test_unif : view (exec .unif (seededAt 0#64))
    = some (0#4, 0x3FEC4415072F63B9#64, 0x9E3779B97F4A7C15#64) := by decide
theorem test_uHalf_edges : [0#64, 0x7FF#64, 0x800#64, 0x8000000000000000#64, 0xFFFFFFFFFFFFFFFF#64].map uHalf
    = [0#64, 0#64, 0x3CA0000000000000#64, 0x3FE0000000000000#64, 0x3FEFFFFFFFFFFFFF#64] := by decide
theorem test_uOpen_edges : [0#64, 0x8000000000000000#64, 0xFFFFFFFFFFFFFFFF#64, 0x06C45D188009454F#64].map uOpen
    = [0x3CA0000000000000#64, 0x3FE0000000000001#64, 0x3FEFFFFFFFFFFFFF#64, 0x3F9B117462002520#64] := by decide
theorem test_rdbytes_three : look (exec (.rdbytes 3#4) (seededAt 0#64))
    (fun t => (dataField t.RSP, t.RDVAL, t.RDPOS)) = some (0x1DCDAF#64, 0x000000E220A8397B#64, 5#4) := by decide
/-- Program P4: five residue bytes, then three of the next word. -/
theorem test_rdbytes_across_words :
    look (exec (.rdbytes 8#4) { seededAt 0x3C6EF372FE94F831#64 with RDVAL := 0x63CBE1E459#64, RDPOS := 5#4 })
      (fun t => (dataField t.RSP, t.RDVAL, t.RDPOS))
      = some (0xB12A0263CBE1E459#64, 0x000000E6984080BA#64, 5#4) := by decide

/-! ## BoundedSampler (95 sections 3 and 4) -/

theorem test_mul64_carry : mul64 0x0123456789ABCDEF#64 0xFEDCBA9876543210#64
    = ⟨0x0121FA00AD77D742#64, 0x2236D88FE5618CF0#64⟩ := by decide
theorem test_mul64_max : mul64 0xFFFFFFFFFFFFFFFF#64 0xFFFFFFFFFFFFFFFF#64
    = ⟨0xFFFFFFFFFFFFFFFE#64, 1#64⟩ := by decide
theorem test_thresholds : [10#32, 0xC0000000#32, 0xFFFFFFFF#32, 0x80000000#32, 1#32].map threshold
    = [6#32, 0x40000000#32, 1#32, 0#32, 0#32] := by decide
theorem test_judge_edges :
    [judgeFirst 6#32 (product32 0x55555556#32 6#32), judgeFirst 6#32 (product32 0x2AAAAAAB#32 6#32)]
      = [.accept 2#32, .reject 4#32] := by decide
theorem test_bound32 : view (exec (.bound32 10#32) (seededAt 0#64))
    = some (0#4, 4#64, 0x9E3779B97F4A7C15#64) := by decide
/-- Seed 1, bound 0x80000001: the first word is rejected, the second accepted. -/
theorem test_bound32_redraw : look (exec (.bound32 0x80000001#32) (seededAt 1#64)) (fun t => (t.BUSY, t.pos))
      = some (true, .redraw32 0x7FFFFFFF#32) ∧
    view (exec (.bound32 0x80000001#32)
      { seededAt 0x9E3779B97F4A7C16#64 with pos := .redraw32 0x7FFFFFFF#32 })
      = some (0#4, 0x32C77633#64, 0x3C6EF372FE94F82B#64) := by decide
theorem test_bound64 : view (exec (.bound64 0xC000000000000000#64) (seededAt 0#64))
    = some (0#4, 0xA9987E2B1C565A43#64, 0x9E3779B97F4A7C15#64) := by decide
theorem test_bound64_last_redraw : view (exec (.bound64 0x8000000000000001#64)
    { seededAt 0x3C6EF372FE94F82A#64 with pos := .redraw64 0x7FFFFFFFFFFFFFFF#64 })
    = some (0#4, 0x03622E8C4004A2A7#64, 0xDAA66D2C7DDF743F#64) := by decide
theorem test_int31n : view (exec (.int31n 6#32) (seededAt 0#64))
    = some (0#4, 2#64, 0x9E3779B97F4A7C15#64) := by decide
theorem test_int31n_negative : view (exec (.int31n 0x80000000#32) (seededAt 5#64))
    = some (1#4, 0#64, 5#64) := by decide
theorem test_int63n : view (exec (.int63n 0x7FFFFFFFFFFFFFFF#64) (seededAt 0#64))
    = some (0#4, 0x7110541CBD8EE6D6#64, 0x9E3779B97F4A7C15#64) := by decide
theorem test_int63n_one_no_draw : view (exec (.int63n 1#64) (seededAt 5#64)) = some (0#4, 0#64, 5#64) := by decide

/-! ## ZigguratSampler (95 section 5), on the test tables -/

/-- `EXP`, seed 0: slow accept. The exponential is the lower neighbour the vector names. -/
theorem test_exp_slow_accept :
    (fun t : State => (dataField t.RSP, t.S, t.BUSY))
      (expPass (tablesT (fun _ => 0x3FDA75574099B9D1#64) id) (seededAt 0#64))
      = (0x3FEC441507200000#64, 0x3C6EF372FE94F82A#64, false) := by decide
/-- `EXP`, seed MAX: the first iteration is rejected after two draws. -/
theorem test_exp_reject :
    (fun t : State => (t.S, t.BUSY))
      (expPass (tablesT (fun _ => 0x3FDA2DB517A8DD14#64) id) (seededAt 0xFFFFFFFFFFFFFFFF#64))
      = (0x3C6EF372FE94F829#64, true) := by decide
/-- `EXP`, seed 6: the tail. -/
theorem test_exp_tail :
    (fun t : State => (dataField t.RSP, t.S))
      (expPass (tablesT id (fun _ => 0xBFE9D0C211CD0737#64)) (seededAt 6#64))
      = (0x402101F8B5DC2E35#64, 0x3C6EF372FE94F830#64) := by decide
/-- `NORM`, seed 3: fast accept with the sign bit set. -/
theorem test_norm_fast_negative :
    (fun t : State => (dataField t.RSP, t.S)) (normPass (tablesT id id) (seededAt 3#64))
      = (0xBFBD0B14E4000000#64, 0x9E3779B97F4A7C18#64) := by decide
/-- `NORM`, seed 0: slow accept, negated. -/
theorem test_norm_slow_negative :
    (fun t : State => (dataField t.RSP, t.S))
      (normPass (tablesT (fun _ => 0x3FE5A9CA3BA828F1#64) id) (seededAt 0#64))
      = (0xBFEC441507200000#64, 0x3C6EF372FE94F82A#64) := by decide
/-- `NORM`, seed 6: into the tail with sign 0, then one pass of it. -/
theorem test_norm_tail :
    (normPass (tablesT id id) (seededAt 6#64)).pos = .tail false ∧
    (fun t : State => (dataField t.RSP, t.S))
      (normPass (tablesT id fun u =>
          if u = 0x3FDC90676C8E5476#64 then 0xBFE9D0C211CD0738#64 else 0xC00702A9116374B8#64)
        { seededAt 0x9E3779B97F4A7C1B#64 with pos := .tail false })
      = (0x400EFFD8680FA9DB#64, 0xDAA66D2C7DDF7445#64) := by decide
theorem test_exp_unseeded : view (exec .exp State.reset) = some (4#4, 0#64, 0#64) := by decide

/-! ## Floating point at its edges (IEEE 754) -/

theorem test_fadd_cancels_to_plus_zero :
    [fadd one 0xBFF0000000000000#64, fadd 0x8000000000000000#64 0x8000000000000000#64] =
      [0#64, 0x8000000000000000#64] := by decide
/-- 1 + 2^-53 ties to even, 1 + 3 * 2^-53 ties upward, the largest number doubled overflows. -/
theorem test_fadd_ties_and_overflow :
    [fadd one 0x3CA0000000000000#64, fadd 0x3FF0000000000001#64 0x3CA0000000000000#64,
      fadd 0x7FEFFFFFFFFFFFFF#64 0x7FEFFFFFFFFFFFFF#64] =
      [one, 0x3FF0000000000002#64, 0x7FF0000000000000#64] := by decide
theorem test_invalid_operations :
    [fsub (infinity false) (infinity false), fmul (zero true) (infinity false), fdiv (zero false) (zero true),
      fdiv (infinity true) (infinity false), fadd 0xFFF0000000000001#64 one] = List.replicate 5 quietNaN := by decide
theorem test_division_by_zero : fdiv 0xBFF0000000000000#64 (zero false) = infinity true := by decide
/-- The least subnormal halved ties to zero; 3 of them halved tie to 2. -/
theorem test_gradual_underflow : [fmul 1#64 0x3FE0000000000000#64, fmul 3#64 0x3FE0000000000000#64] = [0#64, 2#64] := by
  decide
theorem test_zeros_compare_equal :
    [flt (zero true) (zero false), fge (zero true) (zero false), flt quietNaN one, fge quietNaN one]
      = [false, true, false, false] := by decide

/-! ## State image (95 section 6) -/

/-- The image of `S = 0x9E3779B97F4A7C15`; its three zero bytes are not listed. -/
theorem test_marshal : look (exec .marshal (seededAt 0x9E3779B97F4A7C15#64))
    (fun t => ((List.range 16).map (byteAt t.IMG), dataField t.RSP))
    = some ([0x4B#8, 0x52#8, 0x4E#8, 0x47#8, 1#8, 0#8, 0#8, 0#8, 0x15#8, 0x7C#8, 0x4A#8, 0x7F#8, 0xB9#8, 0x79#8,
        0x37#8, 0x9E#8], 16#64) := by decide
theorem test_marshal_unseeded : view (exec .marshal State.reset) = some (4#4, 0#64, 0#64) := by decide

/-- The good image of 95 section 6. -/
def goodImage : Memory := imageOf [0x4B#8, 0x52#8, 0x4E#8, 0x47#8, 1#8, 0#8, 0#8, 0#8, 0x2A#8, 0xF8#8, 0x94#8, 0xFE#8,
  0x72#8, 0xF3#8, 0x6E#8, 0x3C#8]

theorem test_unmarshal : look (exec (.unmarshal 16#64) { State.reset with IMG := goodImage })
    (fun t => (t.S, t.SEEDED, statusField t.RSP)) = some (0x3C6EF372FE94F82A#64, true, 0#4) := by decide
/-- Length 15, and a one in the top tag byte. -/
theorem test_unmarshal_refuses :
    view (exec (.unmarshal 15#64) { seededAt 5#64 with IMG := goodImage }) = some (2#4, 0#64, 5#64) ∧
    view (exec (.unmarshal 16#64) { seededAt 5#64 with IMG := setByte goodImage 7 1#8 }) = some (2#4, 0#64, 5#64) := by
  decide
theorem test_imgrd : look (exec (.imgrd 15#4) { State.reset with IMG := goodImage }) (fun t => dataField t.RSP)
    = some 0x3C#64 := by decide
theorem test_imgwr : look (exec (.imgwr 8#4 0x2A#8) State.reset) (fun t => t.IMG) = some [(8, 0x2A#8)] := by decide
theorem test_imgwr_zero_unlists : look (exec (.imgwr 8#4 0#8) { State.reset with IMG := [(8, 0x2A#8)] })
    (fun t => t.IMG) = some [] := by decide

/-! ## Priority (95 section 7.2) -/

theorem test_not_seeded_before_invalid_argument :
    view (exec (.bound64 0#64) State.reset) = some (4#4, 0#64, 0#64) := by decide
theorem test_illegal_first :
    view (step (State.reset.withFetchWord 72 0x220000000100000000)) = some (5#4, 0#64, 0#64) := by decide

/-! ## The port, the host's reads and the platform -/

theorem test_accept :
    look (step { State.reset with events := [.command 0x110000000000000000#72] })
      (fun t => (t.BUSY, t.latch, t.events, t.ended)) = some (true, 0x110000000000000000#72, [], false) := by decide
theorem test_command_held_while_busy :
    look (step { seededAt 0#64 with latch := 0x110000000000000000#72, events := [.command 0#72] })
      (fun t => (t.BUSY, t.events)) = some (false, [.command 0#72]) := by decide
theorem test_reset_abandons :
    look (step { seededAt 7#64 with latch := 0x300000000000000000#72, events := [.reset, .readBusy] }) id
      = some { State.reset with events := [.readBusy] } := by decide
/-- Reading has no side effect (10_state.md R27), before a command has ended too. -/
theorem test_read_rsp_early_goes_on :
    look (step { State.reset with events := [.readRsp] }) id = some State.reset := by decide
theorem test_read_rsp_while_busy :
    (match step { seededAt 0#64 with events := [.readRsp] } with
      | .fault f => some f
      | .next _ => none
      | .refused _ => none) = some .rspReadWhileBusy := by decide
theorem test_placed_word_runs :
    look (step (State.reset.withFetchWord 72 0x430000000000002A08)) (fun t => (t.IMG, t.BUSY, t.ended))
      = some ([(8, 0x2A#8)], false, true) := by decide

/-! ## Assembler (30_encoding.md R100 to R103) -/

theorem test_assemble_line :
    assemble "IMGWR 8, 0x2A # a byte\nINT31N -1\n\nEXP".toList
      = .ok [.imgwr 8#4 0x2A#8, .int31n 0xFFFFFFFF#32, .exp] := by decide
theorem test_assembler_refuses :
    [assemble "RDBYTES 9".toList, assemble "BOUND32 0x100000000".toList, assemble "NOP".toList]
      = [.error .doesNotFit, .error .doesNotFit, .error .unknownMnemonic] := by decide
theorem test_pseudo_loadstate : (pseudoLoadstate 0x9F5ABF2108F64A04#64).length = 17 ∧
    ((pseudoLoadstate 0x9F5ABF2108F64A04#64).map encode)[8]? = some 0x430000000000000408#72 := by decide
theorem test_listing : listing (mkResponse .ok 0x15#64) = some "-> OK 0x0000000000000015".toList := by decide

/-! ## Witnesses: for each statement with hypotheses, a state and operands that meet them together -/

/-- The block runs the command, the host has nothing to offer. -/
def runningAt (i : Instr) (w : Word) : State := { seededAt w with latch := encode i }

/-- DecodeInvertsEncode, at the count's bound. -/
theorem witness_well_formed : Instr.wellFormed (.rdbytes 8#4) = true := by decide

/-- LegalWordsMatchOneRow: a word two rows could only match as one row; a legal word. -/
theorem witness_row_matches : Row.matches (Instr.row .next64) 0x110000000000000000#72 = true ∧
    Instr.row .next64 ∈ opcodeMap ∧ decode 0x110000000000000000#72 = .command .next64 := by decide

/-- IllegalWordsAnswerIllegalCommand. -/
theorem witness_illegal_running :
    ({ seededAt 0#64 with latch := 0x140000000000000009#72 } : State).BUSY = true ∧
    ({ seededAt 0#64 with latch := 0x140000000000000009#72 } : State).events = [] ∧
    decode 0x140000000000000009#72 = .illegal .countAboveEight := by decide

/-- StepRunsLatchedCommand: nothing offered, a held offer, a read of `BUSY`, a placed word. -/
theorem witness_step_runs :
    (∀ e ∈ (runningAt .next64 0#64).events.head?, e.isHeld = true) ∧
    (∀ e ∈ ({ runningAt .next64 0#64 with events := [.command 0#72] } : State).events.head?, e.isHeld = true) ∧
    ({ runningAt .next64 0#64 with events := [.readBusy] } : State).events = .readBusy :: [] ∧
    (runningAt .next64 0#64).BUSY = true ∧ decode (runningAt .next64 0#64).latch = .command .next64 ∧
    decode (BitVec.ofNat 72 (0x110000000000000000 % 2 ^ 72)) = .command .next64 := by decide

/-- PortAcceptsOnlyWhenIdle: both clauses. -/
theorem witness_port :
    (({ State.reset with events := [.command 0#72] } : State).BUSY = false ∧
      ({ State.reset with events := [.command 0#72] } : State).events = .command 0#72 :: []) ∧
    (({ seededAt 0#64 with events := [.command 0#72] } : State).BUSY = true ∧
      ({ seededAt 0#64 with events := [.command 0#72] } : State).events = .command 0#72 :: []) := by decide

/-- ResetComesInAnyState, with a command running. -/
theorem witness_reset_event :
    ({ seededAt 7#64 with events := [.reset] } : State).events = .reset :: [] := by decide

/-- HostReadsChangeNothing: one state for each clause. -/
theorem witness_host_reads :
    (State.reset.BUSY = false ∧ State.reset.events = []) ∧
    (({ State.reset with events := [.readBusy] } : State).BUSY = false) ∧
    (({ State.reset with ended := true, events := [.readRsp] } : State).mayReadRsp = true) ∧
    (({ seededAt 0#64 with events := [.readRsp] } : State).BUSY = true) ∧
    (({ State.reset with events := [.readRsp] } : State).ended = false) := by decide

/-- UnseededBlockRefusesToDraw: both clauses, and the unseeded clause of every drawing command. -/
theorem witness_unseeded :
    State.reset.SEEDED = false ∧ Instr.wellFormed (.rdbytes 8#4) = true ∧ drawingClass (.rdbytes 8#4) = true ∧
    drawingClass (.imgrd 15#4) = false ∧ Instr.imgrd 15#4 ≠ .marshal ∧
    look (exec (.imgrd 15#4) State.reset) (fun t => statusField t.RSP) = some 0#4 := by decide

/-- InvalidArgumentExactlyAtBadBounds: the seeded clause; a command outside the class that ends. -/
theorem witness_invalid_argument :
    (seededAt 5#64).SEEDED = true ∧ boundedClass .next64 = false ∧ (seededAt 5#64).BUSY = true ∧
    look (exec .next64 (seededAt 5#64)) (fun t => t.BUSY) = some false := by decide

/-- FailedCommandChangesNothing, InvalidSeedNeverRaised: a running command that ends with an error. -/
theorem witness_failed_command :
    (runningAt (.bound32 0#32) 5#64).BUSY = true ∧
    look (exec (.bound32 0#32) (runningAt (.bound32 0#32) 5#64)) (fun t => (t.BUSY, statusField t.RSP))
      = some (false, 1#4) ∧
    look (sequencerStep (runningAt (.bound32 0#32) 5#64)) (fun t => t.BUSY) = some false := by decide

/-- GeneratorIsSplitMix: the intermediates of R112's example. -/
theorem witness_mix_intermediates :
    0x9E3779BB07979AF0#64 = 0x9E3779B97F4A7C15#64 ^^^ (0x9E3779B97F4A7C15#64 >>> 30) ∧
    0x6F68261B57E7A770#64 = 0x9E3779BB07979AF0#64 * 0xBF58476D1CE4E5B9#64 ∧
    0x6F682616BAE3641A#64 = 0x6F68261B57E7A770#64 ^^^ (0x6F68261B57E7A770#64 >>> 27) ∧
    0xE220A838BF5C9DDE#64 = 0x6F682616BAE3641A#64 * 0x94D049BB133111EB#64 := by decide

/-- SeedStoresTheWord: a next state; the seeded clauses of NEXT64, NEXT32, UNIF, EXP and MARSHAL. -/
theorem witness_seeded :
    (∃ t, exec (.seed 5#64) State.reset = .next t) ∧ (seededAt 5#64).SEEDED = true ∧
      (seededAt 5#64).IMG.wf = true := ⟨⟨_, rfl⟩, by decide, by decide⟩

/-- RdbytesGivesOutTheStream and ChunkedReadLaw: full and empty residue, counts at both bounds, two
partitions of one total. -/
theorem witness_residue :
    (({ seededAt 0#64 with RDPOS := 8#4 } : State).RDPOS.toNat ≤ 8 ∧ (8#4).toNat ≤ 8 ∧ (0#4).toNat ≤ 8 ∧
      (seededAt 0#64).RDPOS.toNat ≤ 8) ∧
    (∀ c ∈ [8#4, 8#4], c.toNat ≤ 8) ∧ (∀ d ∈ [3#4, 5#4, 8#4], d.toNat ≤ 8) ∧
    ([8#4, 8#4].map BitVec.toNat).sum = ([3#4, 5#4, 8#4].map BitVec.toNat).sum := by decide

/-- ThresholdFacts, SkippingTheDivisionChangesNothing, EveryResultEquallyOften: bounds at both ends. -/
theorem witness_bounds :
    1#32 ≠ 0#32 ∧ 0xFFFFFFFF#32 ≠ 0#32 ∧ 1#64 ≠ 0#64 ∧ 0xFFFFFFFFFFFFFFFF#64 ≠ 0#64 ∧
    0 < (1#32).toNat ∧ 0xFFFFFFFE < (0xFFFFFFFF#32).toNat ∧ 0 < (1#64).toNat := by decide

/-- The passes of the four bounded commands: the head and the redraw loop, the smallest bound that draws,
signed bounds at the ends of both signs. -/
theorem witness_bounded_passes :
    (seededAt 0#64).pos = .start ∧ 1 < (2#32).toNat ∧ 1 < (2#64).toNat ∧
    ({ seededAt 0#64 with pos := .redraw32 0#32 } : State).pos = .redraw32 0#32 ∧
    ({ seededAt 0#64 with pos := .redraw64 0#64 } : State).pos = .redraw64 0#64 ∧
    (0#32).toInt ≤ 0 ∧ (0x80000000#32).toInt ≤ 0 ∧ 0 < (1#32).toInt ∧ 0 < (0x7FFFFFFF#32).toInt ∧
    (0#64).toInt ≤ 0 ∧ (0x8000000000000000#64).toInt ≤ 0 ∧ 0 < (1#64).toInt ∧
    0 < (0x7FFFFFFFFFFFFFFF#64).toInt := by decide

/-- Int31nAnswersBySignedBound, Int63nAnswersBySignedBound, BoundedResultBelowBound: a pass that ends OK. -/
theorem witness_bounded_ends :
    look (exec (.int31n 6#32) (seededAt 0#64)) (fun t => (t.BUSY, statusField t.RSP)) = some (false, 0#4) ∧
    look (exec (.int63n 10#64) (seededAt 0#64)) (fun t => (t.BUSY, statusField t.RSP)) = some (false, 0#4) ∧
    (seededAt 0#64).BUSY = true := by decide

/-- BoundedRunReturnsFirstAcceptedWord at 32 bits: seed 1, bound 0x80000001, one rejected word. -/
theorem witness_run32 :
    (runningAt (.bound32 0x80000001#32) 1#64).Running (.bound32 0x80000001#32) ∧
    (runningAt (.bound32 0x80000001#32) 1#64).pos = .start ∧
    (∀ j < 1, lowPart 32 0x80000001 (((runningAt (.bound32 0x80000001#32) 1#64).rawWord j).toNat % 2 ^ 32)
      < thresholdNat 32 0x80000001) ∧
    thresholdNat 32 0x80000001
      ≤ lowPart 32 0x80000001 (((runningAt (.bound32 0x80000001#32) 1#64).rawWord 1).toNat % 2 ^ 32) :=
  ⟨⟨by decide, by decide, by decide⟩, by decide, by decide, by decide⟩

/-- BoundedRunReturnsFirstAcceptedWord at 64 bits: seed 0, two rejected words; BoundedCommandsNeverHang. -/
theorem witness_run64 :
    (runningAt (.bound64 0x8000000000000001#64) 0#64).Running (.bound64 0x8000000000000001#64) ∧
    boundedClass (.bound64 0x8000000000000001#64) = true ∧
    (runningAt (.bound64 0x8000000000000001#64) 0#64).pos = .start ∧
    (∀ j < 2, lowPart 64 0x8000000000000001
      ((runningAt (.bound64 0x8000000000000001#64) 0#64).rawWord j).toNat < thresholdNat 64 0x8000000000000001) ∧
    thresholdNat 64 0x8000000000000001
      ≤ lowPart 64 0x8000000000000001 ((runningAt (.bound64 0x8000000000000001#64) 0#64).rawWord 2).toNat :=
  ⟨⟨by decide, by decide, by decide⟩, by decide, by decide, by decide, by decide⟩

/-- OperationsRoundToNearestEven: finite operands, the divisor not zero; the largest number and the least. -/
theorem witness_finite_operands :
    isFinite 0x7FEFFFFFFFFFFFFF#64 = true ∧ isFinite 1#64 = true ∧ value one ≠ 0 := by
  refine ⟨by decide, by decide, ?_⟩
  have he : exponentField one = 1023 := by decide
  have hf : fractionField one = 0 := by decide
  have hm : one.msb = false := by decide
  simp [value, he, hf, hm]

/-- InvalidOperationsGiveQuietNaN: a NaN, with the sign bit and another payload. -/
theorem witness_nan : isNaN 0xFFF0000000000001#64 = true := by decide

/-- NegationFlipsTheSignBit at both ends of the word. -/
theorem witness_bit_positions : 0 < 64 ∧ 63 < 64 := by decide

/-- ExpIterationAsWritten and NormIterationAndTailAsWritten: the fields of the first word of seed 0. -/
theorem witness_iteration :
    0xE220A8397B1DCDAF#64 = (seededAt 0#64).rawWord 0 ∧
    uOpen 0x6E789E6AA1B965F4#64 = uOpen ((seededAt 0#64).rawWord 1) ∧
    0xAF#8 = (0xE220A8397B1DCDAF#64).extractLsb' 0 8 ∧ 0xE220A839#32 = (0xE220A8397B1DCDAF#64).extractLsb' 32 32 ∧
    true = (0xE220A8397B1DCDAF#64).getLsbD 8 ∧ (seededAt 0#64).SEEDED = true ∧ (seededAt 0#64).pos = .start := by
  decide

/-- NormIterationAndTailAsWritten. -/
theorem witness_tail_position :
    ({ seededAt 6#64 with pos := .tail true } : State).pos = .tail true ∧
    ({ seededAt 6#64 with pos := .tail true } : State).SEEDED = true := by decide

/-- ExpNeverHangs. -/
theorem witness_running_exp : (runningAt .exp 0#64).Running .exp := ⟨by decide, by decide, by decide⟩

/-- IndexZeroAlwaysTakesTheTail: the test tables meet the source's premises; seed 6 draws `i = 0`. -/
theorem witness_source_entries :
    RomSourceEntries (tablesT id id).rom ∧ ((seededAt 6#64).rawWord 0).extractLsb' 0 8 = 0#8 :=
  ⟨⟨by decide, by decide⟩, by decide⟩

/-- CandidateNeverNegativeNorNaN: the widths of the test tables. -/
theorem witness_widths : ∀ i, finiteNonneg ((tablesT id id).rom.we i) = true := fun _ =>
  (by decide : finiteNonneg 0x3DF0000000000000#64 = true)

/-- ExpTailNotBelowBaseStrip, ExpTailStrictlyAboveBaseStrip: a function with LN_NEG. -/
theorem witness_ln_neg : LnNeg (fun _ => 0x8000000000000001#64) := fun _ _ _ =>
  ⟨(by decide : isFinite 0x8000000000000001#64 = true),
    (by decide : flt 0x8000000000000001#64 (zero false) = true)⟩

/-- MemoryPrimitivesAreLittleEndian: both widths at the top of `IMG`, the largest value of each. -/
theorem witness_memory : Memory.wf (imageOf [0x4B#8, 0#8, 1#8]) = true ∧ 15 + 1 ≤ 16 ∧ 8 + 8 ≤ 16 ∧
    255 < 256 ^ 1 ∧ 0xFFFFFFFFFFFFFFFF < 256 ^ 8 := by decide

/-- UnmarshalValidatesBeforeLoading: a wrong length next to the right one, a wrong top tag byte, a good
image. -/
theorem witness_images :
    15#64 ≠ 16#64 ∧ 17#64 ≠ 16#64 ∧
    (∃ a < 8, byteAt (setByte goodImage 7 1#8) a ≠ byteOf 0x00000001474E524B#64 a) ∧
    (∀ a < 8, byteAt goodImage a = byteOf 0x00000001474E524B#64 a) :=
  ⟨by decide, by decide, ⟨7, by decide, by decide⟩, by decide⟩

/-- RoundTripLaw: two blocks, and the one that has marshaled. ImgwrSetsOneByte: a canonical image. -/
theorem witness_round_trip :
    (seededAt 5#64).SEEDED = true ∧ (seededAt 5#64).IMG.wf = true ∧
    ({ State.reset with IMG := goodImage } : State).IMG.wf = true ∧
    ∃ A', exec .marshal (seededAt 5#64) = .next A' := ⟨by decide, by decide, by decide, ⟨_, rfl⟩⟩

/-- LoadstateLoadsAnyWord. -/
theorem witness_loadstate :
    ({ State.reset with events := issue (pseudoLoadstate 7#64) } : State).BUSY = false ∧
    ({ State.reset with events := issue (pseudoLoadstate 7#64) } : State).IMG.wf = true := by decide

/-- AssemblerEmitsLegalCommands. -/
theorem witness_assembles : assemble "RDBYTES 8".toList = .ok [.rdbytes 8#4] := by decide

/-- EveryStepKeepsInvariant: a block in the redraw loop, with a full residue. -/
theorem witness_invariant :
    State.Invariant { runningAt (.bound32 0x80000001#32) 1#64 with
      pos := .redraw32 (threshold 0x80000001#32), RDPOS := 8#4 } ∧
    ∃ t, step { runningAt (.bound32 0x80000001#32) 1#64 with
      pos := .redraw32 (threshold 0x80000001#32), RDPOS := 8#4 } = .next t :=
  ⟨{ image := by decide
     residue := by decide
     unseeded := by decide
     status := by decide
     latches := fun _ => ⟨rfl, 0x80000001#32, by decide, rfl, .inl (by decide)⟩ }, _, rfl⟩

/-- SamplersSeeOnlyTheEngine: two blocks that differ in residue and image only. -/
theorem witness_same_engine :
    drawingClass .norm = true ∧ (∀ c, Instr.norm ≠ .rdbytes c) ∧
    (seededAt 5#64).S = ({ seededAt 5#64 with RDPOS := 3#4, IMG := goodImage } : State).S ∧
    (seededAt 5#64).pos = ({ seededAt 5#64 with RDPOS := 3#4, IMG := goodImage } : State).pos :=
  ⟨by decide, nofun, rfl, rfl⟩

/-- DeadValuesAreNeverRead: two blocks after reset that differ in every value that means nothing there; one
that goes on and one whose host breaks the rule. -/
theorem witness_dead_values :
    State.Alike State.reset
      { State.reset with S := 1#64, RDVAL := 2#64, RSP := 3#68, latch := 4#72, pos := .tail true } ∧
    State.Alike { State.reset with BUSY := true, events := [.readRsp] }
      { State.reset with BUSY := true, events := [.readRsp], S := 1#64, RSP := 3#68 } ∧
    step { State.reset with BUSY := true, events := [.readRsp] } = .fault .rspReadWhileBusy :=
  ⟨⟨rfl, rfl, rfl, rfl, rfl, rfl, nofun, nofun, nofun, nofun⟩,
   ⟨rfl, rfl, rfl, rfl, rfl, rfl, nofun, nofun, nofun, fun _ => ⟨rfl, rfl⟩⟩, rfl⟩

/-- OnlyListedCommandsWriteState: a step that writes `S` and ends its command. -/
theorem witness_writing_step :
    (∀ rest, (runningAt .next64 0#64).events ≠ .reset :: rest) ∧
    ∃ t, step (runningAt .next64 0#64) = .next t ∧ t.S ≠ (runningAt .next64 0#64).S :=
  ⟨nofun, _, rfl, by decide⟩

/-- BoundedRunReturnsFirstAcceptedWord, bound 1. -/
theorem witness_run_one :
    (runningAt (.int63n 1#64) 0#64).Running (.int63n 1#64) ∧ (runningAt (.int63n 1#64) 0#64).SEEDED = true :=
  ⟨⟨by decide, by decide, by decide⟩, by decide⟩

end Sys2Proof.Tests
end

/-! PROOFS. Family 20_memory.md: the multi-byte primitives over `IMG` as closed forms, for every width. -/

namespace Sys2Proof.Machine

/-- R52 for every width and address: by induction on the width, the tail of the sum is the read one address
up, times 256. -/
theorem memRead_eq_sum (m : Memory) (a n : Nat) :
    memRead m a n = ∑ k ∈ Finset.range n, 256 ^ k * (byteAt m (a + k)).toNat := by
  induction n generalizing a with
  | zero => rfl
  | succ n ih =>
    have tail : ∑ k ∈ Finset.range n, 256 ^ (k + 1) * (byteAt m (a + (k + 1))).toNat
        = 256 * memRead m (a + 1) n := by
      rw [ih, Finset.mul_sum]
      refine Finset.sum_congr rfl fun k _ => ?_
      rw [show a + (k + 1) = a + 1 + k by omega, pow_succ', mul_assoc]
    rw [Finset.sum_range_succ', tail, memRead, pow_zero, one_mul, add_zero, add_comm]

/-- R53 for every width inside `IMG` and every value: by induction on the width. The lowest byte is written
first and no later write reaches its address; a later byte comes from the value shifted down by one byte. -/
theorem byteAt_memWrite {m : Memory} (h : m.wf = true) {a n : Nat} (ha : a + n ≤ 16) (v x : Nat) :
    byteAt (memWrite m a n v) x =
      if a ≤ x ∧ x < a + n then BitVec.ofNat 8 (v / 256 ^ (x - a)) else byteAt m x := by
  induction n generalizing m a v with
  | zero => rw [memWrite, if_neg (by omega)]
  | succ n ih =>
    rw [memWrite, ih (setByte_wf h (by omega) _) (by omega), byteAt_setByte h]
    obtain hlt | rfl | hgt := lt_trichotomy x a
    · rw [if_neg (by omega), if_neg (by omega), if_neg (by omega)]
    · rw [if_neg (by omega), if_pos rfl, if_pos (by omega), Nat.sub_self, pow_zero, Nat.div_one]
    · have shift : v / 256 / 256 ^ (x - (a + 1)) = v / 256 ^ (x - a) := by
        rw [Nat.div_div_eq_div_mul, ← pow_succ', show x - (a + 1) + 1 = x - a by omega]
      rw [shift, if_neg (by omega : x ≠ a)]
      exact if_congr (by omega) rfl rfl

/-- Settles O48: both primitives have their closed form at every width, so at 1 and 8. -/
theorem memoryPrimitivesAreLittleEndian : Obligations.MemoryPrimitivesAreLittleEndian :=
  ⟨fun m a n _ _ => memRead_eq_sum m a n, fun _ _ _ v x h _ ha _ => byteAt_memWrite h ha v x⟩

end Sys2Proof.Machine

/-! PROOFS. Family 30_encoding.md: the decoder as the inverse of the encoder, the rows of the opcode map as
the words of their commands, and how an illegal word runs. -/

namespace Sys2Proof

/-! ## Words cut into fields -/

/-- A word is put together from two fields exactly when it holds them in their places. -/
theorem eq_append_iff {n m : Nat} {x : BitVec (n + m)} {hi : BitVec n} {lo : BitVec m} :
    x = hi ++ lo ↔ x.extractLsb' m n = hi ∧ x.extractLsb' 0 m = lo := by
  constructor
  · rintro rfl
    exact ⟨BitVec.extractLsb'_append_eq_left, BitVec.extractLsb'_append_eq_right⟩
  · rintro ⟨rfl, rfl⟩
    exact BitVec.extractLsb'_append_extractLsb'.symm

/-- Format B: zeros, the byte, zeros, the address (R81). -/
theorem arg_eq_formatB_iff {arg : Word} {a : BitVec 4} {b : Byte} :
    arg = 0#48 ++ (b ++ (0#4 ++ a)) ↔
      arg.extractLsb' 16 48 = 0#48 ∧ arg.extractLsb' 8 8 = b ∧
        arg.extractLsb' 4 4 = 0#4 ∧ arg.extractLsb' 0 4 = a := by
  rw [eq_append_iff (n := 48) (m := 16), eq_append_iff (n := 8) (m := 8), eq_append_iff (n := 4) (m := 4),
    BitVec.extractLsb'_extractLsb'_of_le (by decide : 8 + 8 ≤ 16),
    BitVec.extractLsb'_extractLsb'_of_le (by decide : 0 + 8 ≤ 16),
    BitVec.extractLsb'_extractLsb'_of_le (by decide : 4 + 4 ≤ 8),
    BitVec.extractLsb'_extractLsb'_of_le (by decide : 0 + 4 ≤ 8)]

/-- A word is a command's exactly when it has the command's opcode and operand field. -/
theorem encode_eq_iff {i : Instr} {w : Command} :
    encode i = w ↔ opField w = i.opcode ∧ argField w = i.arg := by
  constructor
  · rintro rfl
    exact ⟨opField_encode i, argField_encode i⟩
  · rintro ⟨hop, harg⟩
    rw [encode, ← hop, ← harg, append_fields]

/-! ## What each format's decoder reads (R81) -/

theorem decodeN_eq_command {arg : Word} {i j : Instr} :
    decodeN arg i = .command j ↔ i = j ∧ arg = 0#64 := by
  by_cases h : arg = 0#64 <;> simp [decodeN, h]

theorem decodeW_eq_command {arg : Word} {f : Word → Instr} {j : Instr} :
    decodeW arg f = .command j ↔ f arg = j := by
  simp [decodeW]

theorem decodeH_eq_command {arg : Word} {f : Half → Instr} {j : Instr} :
    decodeH arg f = .command j ↔ ∃ n : Half, f n = j ∧ arg = 0#32 ++ n := by
  have cut (n : Half) := eq_append_iff (n := 32) (m := 32) (x := arg) (hi := 0#32) (lo := n)
  by_cases h : arg.extractLsb' 32 32 = 0#32 <;> simp [decodeH, cut, h]

theorem decodeA_eq_command {arg : Word} {f : BitVec 4 → Instr} {j : Instr} :
    decodeA arg f = .command j ↔ ∃ a : BitVec 4, f a = j ∧ arg = 0#60 ++ a := by
  have cut (a : BitVec 4) := eq_append_iff (n := 60) (m := 4) (x := arg) (hi := 0#60) (lo := a)
  by_cases h : arg.extractLsb' 4 60 = 0#60 <;> simp [decodeA, cut, h]

theorem decodeC_eq_command {arg : Word} {f : BitVec 4 → Instr} {j : Instr} :
    decodeC arg f = .command j ↔ ∃ c : BitVec 4, f c = j ∧ c.toNat ≤ 8 ∧ arg = 0#60 ++ c := by
  have cut (c : BitVec 4) := eq_append_iff (n := 60) (m := 4) (x := arg) (hi := 0#60) (lo := c)
  by_cases h : arg.extractLsb' 4 60 = 0#60
  · by_cases hc : (arg.extractLsb' 0 4).toNat ≤ 8 <;> simp [decodeC, cut, h, hc, -BitVec.extractLsb'_toNat]
  · simp [decodeC, cut, h]

theorem decodeB_eq_command {arg : Word} {f : BitVec 4 → Byte → Instr} {j : Instr} :
    decodeB arg f = .command j ↔ ∃ a b, f a b = j ∧ arg = 0#48 ++ (b ++ (0#4 ++ a)) := by
  have cut (a : BitVec 4) (b : Byte) := arg_eq_formatB_iff (arg := arg) (a := a) (b := b)
  by_cases hz : arg.extractLsb' 4 4 = 0#4 <;> by_cases h : arg.extractLsb' 16 48 = 0#48 <;>
    simp [decodeB, cut, h, hz]

/-! ## The decoder inverts the encoder -/

/-- What the decoder reads is a command with a legal word, and the word is that one: one case for each row
of R83, in the order in which the decoder asks. -/
theorem wellFormed_and_encode_of_decode {w : Command} {i : Instr} (h : decode w = .command i) :
    i.wellFormed = true ∧ encode i = w := by
  rw [encode_eq_iff]
  unfold decode at h
  obtain ⟨hop, h⟩ | ⟨-, h⟩ := ite_eq_iff.1 h
  · obtain rfl := decodeW_eq_command.1 h
    exact ⟨rfl, hop, rfl⟩
  iterate 3
    obtain ⟨hop, h⟩ | ⟨-, h⟩ := ite_eq_iff.1 h
    · obtain ⟨rfl, harg⟩ := decodeN_eq_command.1 h
      exact ⟨rfl, hop, harg⟩
  obtain ⟨hop, h⟩ | ⟨-, h⟩ := ite_eq_iff.1 h
  · obtain ⟨c, rfl, hc, harg⟩ := decodeC_eq_command.1 h
    exact ⟨decide_eq_true hc, hop, harg⟩
  obtain ⟨hop, h⟩ | ⟨-, h⟩ := ite_eq_iff.1 h
  · obtain ⟨n, rfl, harg⟩ := decodeH_eq_command.1 h
    exact ⟨rfl, hop, harg⟩
  obtain ⟨hop, h⟩ | ⟨-, h⟩ := ite_eq_iff.1 h
  · obtain rfl := decodeW_eq_command.1 h
    exact ⟨rfl, hop, rfl⟩
  obtain ⟨hop, h⟩ | ⟨-, h⟩ := ite_eq_iff.1 h
  · obtain ⟨n, rfl, harg⟩ := decodeH_eq_command.1 h
    exact ⟨rfl, hop, harg⟩
  obtain ⟨hop, h⟩ | ⟨-, h⟩ := ite_eq_iff.1 h
  · obtain rfl := decodeW_eq_command.1 h
    exact ⟨rfl, hop, rfl⟩
  iterate 3
    obtain ⟨hop, h⟩ | ⟨-, h⟩ := ite_eq_iff.1 h
    · obtain ⟨rfl, harg⟩ := decodeN_eq_command.1 h
      exact ⟨rfl, hop, harg⟩
  obtain ⟨hop, h⟩ | ⟨-, h⟩ := ite_eq_iff.1 h
  · obtain rfl := decodeW_eq_command.1 h
    exact ⟨rfl, hop, rfl⟩
  obtain ⟨hop, h⟩ | ⟨-, h⟩ := ite_eq_iff.1 h
  · obtain ⟨a, rfl, harg⟩ := decodeA_eq_command.1 h
    exact ⟨rfl, hop, harg⟩
  obtain ⟨hop, h⟩ | ⟨-, h⟩ := ite_eq_iff.1 h
  · obtain ⟨a, b, rfl, harg⟩ := decodeB_eq_command.1 h
    exact ⟨rfl, hop, harg⟩
  · cases h

/-- Every well-formed command is read from its own word. -/
theorem decode_encode {i : Instr} (hwf : i.wellFormed = true) : decode (encode i) = .command i := by
  unfold decode
  rw [opField_encode, argField_encode]
  cases i with
  | seed w | bound64 w | int63n w | unmarshal w => rfl
  | next64 | next32 | unif | exp | norm | marshal => rfl
  | rdbytes c => exact decodeC_eq_command.2 ⟨c, rfl, of_decide_eq_true hwf, rfl⟩
  | bound32 n | int31n n => exact decodeH_eq_command.2 ⟨n, rfl, rfl⟩
  | imgrd a => exact decodeA_eq_command.2 ⟨a, rfl, rfl⟩
  | imgwr a b => exact decodeB_eq_command.2 ⟨a, b, rfl, rfl⟩

/-- R84: a word is read as a command exactly when it is that command's word and the command has a legal one. -/
theorem decode_eq_command_iff {w : Command} {i : Instr} :
    decode w = .command i ↔ i.wellFormed = true ∧ encode i = w :=
  ⟨wellFormed_and_encode_of_decode, fun ⟨hwf, hw⟩ => hw ▸ decode_encode hwf⟩

theorem decode_illegal_iff {w : Command} :
    (∃ why, decode w = .illegal why) ↔ ¬ ∃ i, decode w = .command i := by
  cases decode w <;> simp

/-! ## The rows of the opcode map (R83) -/

/-- The bits of the operand field that the command's format marks must-be-zero (R81). -/
def Instr.mustBeZero : Instr → Word
  | .next64 | .next32 | .unif | .exp | .norm | .marshal => BitVec.allOnes 64
  | .seed _ | .bound64 _ | .int63n _ | .unmarshal _ => 0#64
  | .bound32 _ | .int31n _ => BitVec.allOnes 32 ++ 0#32
  | .rdbytes _ | .imgrd _ => BitVec.allOnes 60 ++ 0#4
  | .imgwr _ _ => BitVec.allOnes 48 ++ (0#8 ++ (BitVec.allOnes 4 ++ 0#4))

/-- Mask and match of a row say: this opcode, and zeros where the format asks for them. -/
theorem row_eq (i : Instr) : i.row = ⟨BitVec.allOnes 8 ++ i.mustBeZero, i.opcode ++ 0#64⟩ := by
  cases i <;> simp only [Instr.row, Instr.mustBeZero, Instr.opcode] <;> decide

theorem row_matches_iff_fields {i : Instr} {w : Command} :
    i.row.matches w = true ↔ opField w = i.opcode ∧ argField w &&& i.mustBeZero = 0#64 := by
  have fields : w &&& (BitVec.allOnes 8 ++ i.mustBeZero) = opField w ++ (argField w &&& i.mustBeZero) := by
    conv_lhs => rw [← append_fields w]
    rw [BitVec.and_append, BitVec.and_allOnes]
  rw [row_eq, Row.matches, beq_iff_eq, fields]
  exact eq_append_iff.trans (by rw [BitVec.extractLsb'_append_eq_left, BitVec.extractLsb'_append_eq_right])

/-- A mask of ones over a field finds the zeros there. -/
theorem extractLsb'_eq_zero_of_and {w start len : Nat} {x mask : BitVec w} (h : x &&& mask = 0#w)
    (ones : mask.extractLsb' start len = BitVec.allOnes len) : x.extractLsb' start len = 0#len := by
  have field := congrArg (BitVec.extractLsb' start len) h
  rwa [BitVec.extractLsb'_and, ones, BitVec.and_allOnes, BitVec.extractLsb'_zero] at field

/-- A mask put together from two finds nothing where neither does. -/
theorem append_and_append_eq_zero {n m : Nat} {a c : BitVec n} {b d : BitVec m} (hi : a &&& c = 0#n)
    (lo : b &&& d = 0#m) : (a ++ b) &&& (c ++ d) = 0#(n + m) := by
  rw [BitVec.and_append, hi, lo]
  exact (eq_append_iff.2 ⟨BitVec.extractLsb'_zero, BitVec.extractLsb'_zero⟩).symm

theorem arg_and_mustBeZero (i : Instr) : i.arg &&& i.mustBeZero = 0#64 := by
  cases i with
  | next64 | next32 | unif | exp | norm | marshal => exact BitVec.zero_and
  | seed w | bound64 w | int63n w | unmarshal w => exact BitVec.and_zero
  | bound32 n | int31n n | rdbytes n | imgrd n =>
    exact append_and_append_eq_zero BitVec.zero_and BitVec.and_zero
  | imgwr a b =>
    exact append_and_append_eq_zero BitVec.zero_and <| append_and_append_eq_zero BitVec.and_zero <|
      append_and_append_eq_zero BitVec.zero_and BitVec.and_zero

/-- Format H, C or A: zeros in the upper bits leave the operand. -/
theorem eq_zero_append_of_and (n m : Nat) {x : BitVec (n + m)}
    (h : x &&& (BitVec.allOnes n ++ 0#m) = 0#(n + m)) : x = 0#n ++ x.extractLsb' 0 m :=
  eq_append_iff.2 ⟨extractLsb'_eq_zero_of_and h BitVec.extractLsb'_append_eq_left, rfl⟩

/-- Every operand field with zeros where the format asks for them is that of a command of the same row. -/
theorem exists_instr_of_and_mustBeZero {i : Instr} {arg : Word} (h : arg &&& i.mustBeZero = 0#64) :
    ∃ j : Instr, j.row = i.row ∧ j.opcode = i.opcode ∧ arg = j.arg := by
  cases i with
  | seed _ => exact ⟨.seed arg, rfl, rfl, rfl⟩
  | bound64 _ => exact ⟨.bound64 arg, rfl, rfl, rfl⟩
  | int63n _ => exact ⟨.int63n arg, rfl, rfl, rfl⟩
  | unmarshal _ => exact ⟨.unmarshal arg, rfl, rfl, rfl⟩
  | next64 | next32 | unif | exp | norm | marshal => exact ⟨_, rfl, rfl, BitVec.and_allOnes.symm.trans h⟩
  | bound32 _ => exact ⟨.bound32 (arg.extractLsb' 0 32), rfl, rfl, eq_zero_append_of_and 32 32 h⟩
  | int31n _ => exact ⟨.int31n (arg.extractLsb' 0 32), rfl, rfl, eq_zero_append_of_and 32 32 h⟩
  | rdbytes _ => exact ⟨.rdbytes (arg.extractLsb' 0 4), rfl, rfl, eq_zero_append_of_and 60 4 h⟩
  | imgrd _ => exact ⟨.imgrd (arg.extractLsb' 0 4), rfl, rfl, eq_zero_append_of_and 60 4 h⟩
  | imgwr _ _ =>
    have top := extractLsb'_eq_zero_of_and (start := 16) (len := 48) h (by rw [Instr.mustBeZero]; decide)
    have mid := extractLsb'_eq_zero_of_and (start := 4) (len := 4) h (by rw [Instr.mustBeZero]; decide)
    exact ⟨.imgwr (arg.extractLsb' 0 4) (arg.extractLsb' 8 8), rfl, rfl,
      arg_eq_formatB_iff.2 ⟨top, rfl, mid, rfl⟩⟩

/-- A word matches a row exactly when it is the word of a command of that row. -/
theorem row_matches_iff {i : Instr} {w : Command} :
    i.row.matches w = true ↔ ∃ j : Instr, j.row = i.row ∧ encode j = w := by
  constructor
  · intro h
    obtain ⟨hop, hmbz⟩ := row_matches_iff_fields.1 h
    obtain ⟨j, hrow, hj, harg⟩ := exists_instr_of_and_mustBeZero hmbz
    exact ⟨j, hrow, encode_eq_iff.2 ⟨hop.trans hj.symm, harg⟩⟩
  · rintro ⟨j, hrow, rfl⟩
    rw [← hrow, row_matches_iff_fields, opField_encode, argField_encode]
    exact ⟨rfl, arg_and_mustBeZero j⟩

theorem row_mem_opcodeMap (i : Instr) : i.row ∈ opcodeMap := by
  cases i <;> simp [opcodeMap, Instr.row]

theorem mem_opcodeMap_iff {r : Row} : r ∈ opcodeMap ↔ ∃ i : Instr, i.row = r := by
  constructor
  · intro h
    simp only [opcodeMap, ← List.map_append, List.mem_map] at h
    obtain ⟨i, -, hi⟩ := h
    exact ⟨i, hi⟩
  · rintro ⟨i, rfl⟩
    exact row_mem_opcodeMap i

/-- The opcode in a row's match is that of the row's commands. -/
theorem opField_row_pattern (i : Instr) : opField i.row.pattern = i.opcode := by
  rw [row_eq, opField_append]

theorem matches_opField {r : Row} {w : Command} (hr : r ∈ opcodeMap) (h : r.matches w = true) :
    opField r.pattern = opField w := by
  obtain ⟨i, rfl⟩ := mem_opcodeMap_iff.1 hr
  rw [opField_row_pattern, (row_matches_iff_fields.1 h).1]

/-- The opcodes of the fifteen rows differ (R83). -/
theorem row_eq_of_opField_pattern_eq :
    ∀ r ∈ opcodeMap, ∀ r' ∈ opcodeMap, opField r.pattern = opField r'.pattern → r = r' := by
  decide

/-- The count of `RDBYTES` is the one check that a word of a row can still fail. -/
theorem wellFormed_iff_count (i : Instr) :
    i.wellFormed = true ↔ (opField (encode i) = 0x14#8 → ((encode i).extractLsb' 0 4).toNat ≤ 8) := by
  have low : (encode i).extractLsb' 0 4 = i.arg.extractLsb' 0 4 := by
    rw [← argField_encode i]
    exact (BitVec.extractLsb'_extractLsb'_of_le (by decide)).symm
  rw [opField_encode, low]
  cases i with
  | rdbytes c =>
    have count : (Instr.rdbytes c).arg.extractLsb' 0 4 = c := BitVec.extractLsb'_append_eq_right
    rw [count]
    exact ⟨fun h _ => of_decide_eq_true h, fun h => decide_eq_true (h rfl)⟩
  | seed _ | next64 | next32 | unif | bound32 _ | bound64 _ | int31n _ | int63n _ | exp | norm | marshal
  | unmarshal _ | imgrd _ | imgwr _ _ => simp [Instr.wellFormed, Instr.opcode]

/-- R84: a word is a command exactly when it matches a row and, for `RDBYTES`, its count is at most 8. -/
theorem exists_decode_iff_matches (w : Command) : (∃ i, decode w = .command i) ↔
    ∃ r ∈ opcodeMap, r.matches w = true ∧ (opField w = 0x14#8 → (w.extractLsb' 0 4).toNat ≤ 8) := by
  constructor
  · rintro ⟨i, h⟩
    obtain ⟨hwf, rfl⟩ := decode_eq_command_iff.1 h
    exact ⟨i.row, row_mem_opcodeMap i, row_matches_iff.2 ⟨i, rfl, rfl⟩, (wellFormed_iff_count i).1 hwf⟩
  · rintro ⟨r, hr, hmatch, hcount⟩
    obtain ⟨i, rfl⟩ := mem_opcodeMap_iff.1 hr
    obtain ⟨j, -, rfl⟩ := row_matches_iff.1 hmatch
    exact ⟨j, decode_encode ((wellFormed_iff_count j).2 hcount)⟩

/-- R84: no two rows match one word, because the opcodes differ. -/
theorem row_eq_of_matches {w : Command} {r r' : Row} (hr : r ∈ opcodeMap) (hr' : r' ∈ opcodeMap)
    (h : r.matches w = true) (h' : r'.matches w = true) : r = r' :=
  row_eq_of_opField_pattern_eq r hr r' hr' ((matches_opField hr h).trans (matches_opField hr' h').symm)

/-- Settles O2: the decoder reads exactly the words that match a row, and reads each as the command whose
word it is. -/
theorem legalWordsMatchOneRow : Obligations.LegalWordsMatchOneRow := by
  refine ⟨exists_decode_iff_matches, fun _ _ hr _ hr' => row_eq_of_matches hr hr', fun w i h => ?_⟩
  obtain ⟨-, hw⟩ := decode_eq_command_iff.1 h
  exact ⟨row_matches_iff.2 ⟨i, rfl, hw⟩, hw⟩

/-! ## Illegal words (R88) -/

/-- R88: the three ways a word is no command. A word with a known opcode has one row; it fails to match
it, or it matches it and its count is too large. -/
theorem decode_illegal_iff_cause (w : Command) : (∃ why, decode w = .illegal why) ↔
    (∀ r ∈ opcodeMap, opField r.pattern ≠ opField w) ∨
    (∃ r ∈ opcodeMap, opField r.pattern = opField w ∧ r.matches w = false) ∨
    (opField w = 0x14#8 ∧ 8 < (w.extractLsb' 0 4).toNat) := by
  rw [decode_illegal_iff, exists_decode_iff_matches]
  constructor
  · intro illegal
    by_cases known : ∃ r ∈ opcodeMap, opField r.pattern = opField w
    · obtain ⟨r, hr, hop⟩ := known
      cases hmatch : r.matches w with
      | false => exact .inr (.inl ⟨r, hr, hop, hmatch⟩)
      | true =>
        refine .inr (.inr ?_)
        by_contra hcount
        exact illegal ⟨r, hr, hmatch, fun hrd => not_lt.1 fun h8 => hcount ⟨hrd, h8⟩⟩
    · exact .inl fun r hr hop => known ⟨r, hr, hop⟩
  · rintro cause ⟨r, hr, hmatch, hcount⟩
    have hop := matches_opField hr hmatch
    obtain unknown | ⟨r', hr', hop', hmiss⟩ | ⟨hrd, h8⟩ := cause
    · exact unknown r hr hop
    · obtain rfl := row_eq_of_opField_pattern_eq r hr r' hr' (hop.trans hop'.symm)
      exact absurd hmatch (by simp [hmiss])
    · exact absurd (hcount hrd) (not_le.2 h8)

end Sys2Proof

namespace Sys2Proof.Machine

/-- While a command runs and nothing is offered, the step is the sequencer's pass. -/
theorem step_of_running {s : State} (hbusy : s.BUSY = true) (hev : s.events = []) :
    step s = sequencerStep s := by
  simp [step, portStep, hev, hbusy]

/-- An idle block accepts the command that is offered, whatever its word (R267). -/
theorem step_of_offered {s : State} {w : Command} {rest : List Event} (hidle : s.BUSY = false)
    (hev : s.events = .command w :: rest) : step s = .next (s.accept w rest) := by
  simp [step, portStep, hev, hidle]

/-- The pass of an illegal word is the exit with `IllegalCommand` (R88). -/
theorem sequencerStep_of_illegal {s : State} {why : IllegalCause} (h : decode s.latch = .illegal why) :
    sequencerStep s = raise .illegalCommand s := by
  simp [sequencerStep, h]

/-- Settles O3: the three causes are the failures of R84's test, and an illegal word takes the port's way
of every word and the sequencer's exit with `IllegalCommand`. -/
theorem illegalWordsAnswerIllegalCommand : Obligations.IllegalWordsAnswerIllegalCommand := by
  refine ⟨decode_illegal_iff_cause, fun s why hbusy hev hdec => ?_,
    fun s w rest why _ hidle hev => step_of_offered hidle hev, by decide⟩
  rw [step_of_running hbusy hev, sequencerStep_of_illegal hdec]
  rfl

end Sys2Proof.Machine

/-! PROOFS. Family 40_bitengine.md: the generator and the commands of one draw, the exact conversions of a
raw word into binary64, and the byte stream of `RDBYTES`. -/

namespace Sys2Proof.Machine

/-! ## The generator and the commands of one draw -/

/-- The state update is addition modulo 2^64 (R111). -/
theorem advance_toNat (s : Word) : (advance s).toNat = (s.toNat + 0x9E3779B97F4A7C15) % 2 ^ 64 := by
  rw [advance, BitVec.add_comm, BitVec.toNat_add]
  rfl

/-- Settles O14: the model writes the constant of each product first, R112 last. -/
theorem generatorIsSplitMix : Obligations.GeneratorIsSplitMix := by
  refine ⟨advance_toNat, ?_⟩
  rintro z _ _ _ _ rfl rfl rfl rfl
  rw [mix, BitVec.mul_comm mix2, BitVec.mul_comm mix1]
  rfl

/-- Settles O17: `SEED` has no guard and its one write to the generator is the word itself. -/
theorem seedStoresTheWord : Obligations.SeedStoresTheWord := by
  refine ⟨fun _ => rfl, fun _ _ => rfl, fun w s t h => ?_⟩
  cases h
  exact congrArg mix (BitVec.add_comm gamma w)

/-- A guarded command of an unseeded block answers `NotSeeded` (R234). -/
theorem whenSeeded_eq_notSeeded {s : State} (h : s.SEEDED = false) (body : State → Result) :
    whenSeeded s body = .next (s.answered 4#4 0#64) :=
  whenSeeded_of_unseeded h body

/-- A guarded command of a seeded block that ends in its first pass answers `OK`. -/
theorem whenSeeded_done {s : State} (h : s.SEEDED = true) (data : State → Word) (next : State → State) :
    whenSeeded s (fun s => done (data s) (next s)) = .next ((next s).answered 0#4 (data s)) :=
  whenSeeded_of_seeded h _

theorem exec_next64 (s : State) : exec .next64 s = whenSeeded s fun s => done s.drawn s.afterDraw := rfl

theorem exec_next32 (s : State) :
    exec .next32 s = whenSeeded s fun s => done (zext64 s.drawn32) s.afterDraw := rfl

theorem exec_unif (s : State) : exec .unif s = whenSeeded s fun s => done (uHalf s.drawn) s.afterDraw := rfl

/-- Settles O18: the guard of R114, then one draw. -/
theorem next64ReturnsOneDraw : Obligations.Next64ReturnsOneDraw :=
  ⟨rfl, fun s h => (exec_next64 s).trans (whenSeeded_eq_notSeeded h _),
    fun s h => (exec_next64 s).trans (whenSeeded_done h _ _)⟩

/-- The low half of a word, widened again, is the word modulo 2^32 (R115). -/
theorem zext64_drawn32 (s : State) : zext64 s.drawn32 = BitVec.ofNat 64 (s.drawn.toNat % 2 ^ 32) := by
  apply BitVec.eq_of_toNat_eq
  simp [zext64, State.drawn32]

/-- Settles O19: the guard of R115, then the low half of one draw. -/
theorem next32ReturnsLowHalf : Obligations.Next32ReturnsLowHalf := by
  refine ⟨rfl, fun s h => (exec_next32 s).trans (whenSeeded_eq_notSeeded h _), fun s h => ?_⟩
  rw [exec_next32, whenSeeded_done h, zext64_drawn32]
  rfl

/-! ## Exact binary64 values -/

theorem exponentField_eq_magnitude_div (a : Word) : exponentField a = magnitude a / 2 ^ 52 := by
  simp only [exponentField, magnitude, BitVec.extractLsb'_toNat, Nat.shiftRight_eq_div_pow]
  omega

theorem fractionField_eq_magnitude_mod (a : Word) : fractionField a = magnitude a % 2 ^ 52 := by
  simp only [fractionField, magnitude, BitVec.extractLsb'_toNat, Nat.shiftRight_eq_div_pow]
  omega

@[simp] theorem magnitude_withSign (neg : Bool) (mag : BitVec 63) :
    magnitude (withSign neg mag) = mag.toNat :=
  congrArg BitVec.toNat (BitVec.extractLsb'_append_eq_right (a := BitVec.ofBool neg))

@[simp] theorem msb_withSign (neg : Bool) (mag : BitVec 63) : (withSign neg mag).msb = neg := by
  rw [withSign, BitVec.msb_append]
  simp

/-- The normal pattern with sign bit 0 of a 53-bit significand: its hidden bit counts in the exponent field. -/
theorem withSign_normal_exact {E sig : Nat} (hE : E ≤ 2045) (hlo : 2 ^ 52 ≤ sig) (hhi : sig < 2 ^ 53) :
    value (withSign false (BitVec.ofNat 63 (E * 2 ^ 52 + sig))) = sig * (2 : ℚ) ^ ((E : ℤ) - 1074) ∧
      isFinite (withSign false (BitVec.ofNat 63 (E * 2 ^ 52 + sig))) = true := by
  have hmag : magnitude (withSign false (BitVec.ofNat 63 (E * 2 ^ 52 + sig))) = E * 2 ^ 52 + sig := by
    rw [magnitude_withSign, BitVec.toNat_ofNat]; omega
  have hexp : exponentField (withSign false (BitVec.ofNat 63 (E * 2 ^ 52 + sig))) = E + 1 := by
    rw [exponentField_eq_magnitude_div, hmag]; omega
  have hfrac : 2 ^ 52 + fractionField (withSign false (BitVec.ofNat 63 (E * 2 ^ 52 + sig))) = sig := by
    rw [fractionField_eq_magnitude_mod, hmag]; omega
  constructor
  · rw [value, msb_withSign, hexp, if_neg Bool.false_ne_true, if_neg E.succ_ne_zero, one_mul]
    congr 1
    · exact_mod_cast hfrac
    · congr 1; push_cast; ring
  · rw [isFinite, hexp, bne_iff_ne]; omega

/-- An integer is its own nearest integer. -/
theorem divNearestEven_one (n : Nat) : divNearestEven n 1 = n := by
  simp [divNearestEven, Nat.mod_one]

theorem floorLog2_one {m : Nat} (hm : m ≠ 0) : floorLog2 m 1 = m.log2 := by
  simp [floorLog2, show Nat.log2 1 = 0 by decide, Nat.log2_self_le hm]

/-- Shifted up until its leading bit is bit 52, an integer of at most 53 bits is a normal significand. -/
theorem normalized_bounds {m : Nat} (hm : m ≠ 0) (hlt : m < 2 ^ 53) :
    2 ^ 52 ≤ m * 2 ^ (52 - m.log2) ∧ m * 2 ^ (52 - m.log2) < 2 ^ 53 := by
  have hlog : m.log2 < 53 := (Nat.log2_lt hm).2 hlt
  constructor
  · calc 2 ^ 52 = 2 ^ m.log2 * 2 ^ (52 - m.log2) := by rw [← pow_add]; congr 1; omega
      _ ≤ m * 2 ^ (52 - m.log2) := by gcongr; exact Nat.log2_self_le hm
  · calc m * 2 ^ (52 - m.log2) < 2 ^ (m.log2 + 1) * 2 ^ (52 - m.log2) := by
          gcongr; exact Nat.lt_log2_self
      _ = 2 ^ 53 := by rw [← pow_add]; congr 1; omega

/-- A value of at most 53 bits in the normal range is rounded at its own last place or below it, so its
magnitude is its exponent and its significand, with nothing lost. -/
theorem roundMag_exact {m : Nat} {e : Int} (hm : m ≠ 0) (hlt : m < 2 ^ 53) (hlo : -1022 ≤ e) (hhi : e ≤ 971) :
    roundMag m 1 e = (m.log2 + e + 1022).toNat * 2 ^ 52 + m * 2 ^ (52 - m.log2) := by
  have hlog : m.log2 < 53 := (Nat.log2_lt hm).2 hlt
  have hsig := (normalized_bounds hm hlt).2
  have hq : roundExponent m 1 e = m.log2 + e - 52 := by
    rw [roundExponent, floorLog2_one hm]; omega
  simp only [roundMag, hq, infMag]
  rw [show (e - (m.log2 + e - 52)).toNat = 52 - m.log2 by omega,
    show (m.log2 + e - 52 - e).toNat = 0 by omega,
    show m.log2 + e - 52 + 1074 = m.log2 + e + 1022 by ring, pow_zero, one_mul, divNearestEven_one]
  omega

/-- A scaled integer has sign bit 0, the integer 0 too. -/
theorem ofScaled_msb (m : Nat) (e : Int) : (ofScaled m e).msb = false := by
  unfold ofScaled
  split <;> exact msb_withSign ..

/-- A 53-bit integer times a power of two in the normal range is exact and finite. -/
theorem ofScaled_exact {m : Nat} {e : Int} (hlt : m < 2 ^ 53) (hlo : -1022 ≤ e) (hhi : e ≤ 971) :
    value (ofScaled m e) = m * (2 : ℚ) ^ e ∧ isFinite (ofScaled m e) = true := by
  obtain rfl | hm := eq_or_ne m 0
  · rw [show ofScaled 0 e = 0#64 from rfl, Nat.cast_zero, zero_mul]
    exact ⟨by simp [value, exponentField, fractionField], by decide⟩
  have hlog : m.log2 < 53 := (Nat.log2_lt hm).2 hlt
  obtain ⟨hsig, hsig'⟩ := normalized_bounds hm hlt
  obtain ⟨hval, hfin⟩ := withSign_normal_exact (E := (m.log2 + e + 1022).toNat) (by omega) hsig hsig'
  rw [ofScaled, if_neg hm, round, roundMag_exact hm hlt hlo hhi]
  refine ⟨hval.trans ?_, hfin⟩
  push_cast
  rw [mul_assoc, ← zpow_natCast, ← zpow_add₀ two_ne_zero]
  congr 2
  omega

/-- `U_HALF` is exact (R117). -/
theorem uHalf_exact (v : Word) :
    value (uHalf v) = (v.toNat / 2 ^ 11 : Nat) / 2 ^ 53 ∧ isFinite (uHalf v) = true := by
  have hm : (v >>> 11).toNat = v.toNat / 2 ^ 11 := by
    rw [BitVec.toNat_ushiftRight, Nat.shiftRight_eq_div_pow]
  rw [uHalf, hm, div_eq_mul_inv, ← zpow_natCast, ← zpow_neg]
  exact ofScaled_exact (by omega) (by decide) (by decide)

/-- `U_OPEN` is exact (R177). -/
theorem uOpen_exact (v : Word) :
    value (uOpen v) = (2 * (v.toNat / 2 ^ 12) + 1 : Nat) / 2 ^ 53 ∧ isFinite (uOpen v) = true := by
  have hm : (v >>> 12).toNat = v.toNat / 2 ^ 12 := by
    rw [BitVec.toNat_ushiftRight, Nat.shiftRight_eq_div_pow]
  rw [uOpen, hm, div_eq_mul_inv, ← zpow_natCast, ← zpow_neg]
  exact ofScaled_exact (by omega) (by decide) (by decide)

/-- `u32_to_f64` is exact (R174). -/
theorem u32ToF64_exact (j : Half) : value (u32ToF64 j) = j.toNat ∧ isFinite (u32ToF64 j) = true := by
  have h := ofScaled_exact (m := j.toNat) (e := 0) (by omega) (by decide) (by decide)
  rwa [zpow_zero, mul_one] at h

/-- A fraction over 2^53 below 1 is at most its greatest value. -/
theorem div_two_pow_le_one_sub {n : Nat} (h : n < 2 ^ 53) : (n : ℚ) / 2 ^ 53 ≤ 1 - 1 / 2 ^ 53 := by
  have : (n : ℚ) + 1 ≤ 2 ^ 53 := by exact_mod_cast h
  linarith

/-- `U_HALF` lies from 0 up to its greatest value, below 1 (R117). -/
theorem uHalf_range (v : Word) : 0 ≤ value (uHalf v) ∧ value (uHalf v) ≤ 1 - 1 / 2 ^ 53 := by
  rw [(uHalf_exact v).1]
  exact ⟨by positivity, div_two_pow_le_one_sub (by omega)⟩

/-- `U_OPEN` lies strictly between 0 and 1 (R177). -/
theorem uOpen_range (v : Word) : 1 / 2 ^ 53 ≤ value (uOpen v) ∧ value (uOpen v) ≤ 1 - 1 / 2 ^ 53 := by
  rw [(uOpen_exact v).1]
  refine ⟨?_, div_two_pow_le_one_sub (by omega)⟩
  gcongr
  exact_mod_cast Nat.le_add_left 1 _

/-- Settles O39: each conversion scales an integer of at most 53 bits, so it is exact. -/
theorem conversionsAreExact : Obligations.ConversionsAreExact :=
  ⟨fun v => ⟨(uHalf_exact v).1, (uHalf_exact v).2, uHalf_range v⟩, by decide, by decide, u32ToF64_exact,
    by decide, fun v => ⟨(uOpen_exact v).1, (uOpen_exact v).2, uOpen_range v⟩, by decide, by decide⟩

/-- Settles O20: one draw through the exact `U_HALF`, whose range excludes 1. -/
theorem unifReturnsHalfOpenUniform : Obligations.UnifReturnsHalfOpenUniform := by
  refine ⟨rfl, fun s h => (exec_unif s).trans (whenSeeded_eq_notSeeded h _), fun s h => ?_⟩
  obtain ⟨hval, hfin⟩ := uHalf_exact s.drawn
  obtain ⟨hlo, hhi⟩ := uHalf_range s.drawn
  exact ⟨uHalf s.drawn, (exec_unif s).trans (whenSeeded_done h _ _), hval, hfin, ofScaled_msb _ _, hlo,
    hhi.trans_lt (by norm_num)⟩

/-! ## The byte stream of `RDBYTES` -/

/-- The next byte moves down when one is taken out (R119). -/
theorem byteOf_ushiftRight (v : Word) (k : Nat) : byteOf (v >>> 8) k = byteOf v (k + 1) := by
  apply BitVec.eq_of_getLsbD_eq
  intro i hi
  simp [byteOf, hi, show 8 + (8 * k + i) = 8 * (k + 1) + i by ring]

/-- The byte given out first stands lowest. -/
theorem byteOf_or_shiftLeft_zero (b : Byte) (v : Word) : byteOf (zext64 b ||| (v <<< 8)) 0 = b := by
  apply BitVec.eq_of_getLsbD_eq
  intro i hi
  simp [byteOf, zext64, hi, show i < 64 by omega]

/-- The bytes given out later stand above the first. -/
theorem byteOf_or_shiftLeft_succ (b : Byte) (v : Word) {k : Nat} (hk : k + 1 < 8) :
    byteOf (zext64 b ||| (v <<< 8)) (k + 1) = byteOf v k := by
  apply BitVec.eq_of_getLsbD_eq
  intro i hi
  have hb : b.getLsbD (8 * (k + 1) + i) = false := b.getLsbD_of_ge _ (by omega)
  simp [byteOf, zext64, hi, hb, show 8 * (k + 1) + i - 8 = 8 * k + i by omega,
    show 8 * (k + 1) + i < 64 by omega, show ¬ 8 * (k + 1) + i < 8 by omega, show 8 * k + i < 64 by omega]

/-- A full residue of the first raw word has the stream of the empty residue before it. -/
theorem State.streamByte_refill (s : State) (k : Nat) : s.refill.streamByte k = s.streamByte k := by
  obtain ⟨_, h⟩ | ⟨hempty, h⟩ := s.refill_cases
  · rw [h]
  have hpos : s.refill.RDPOS = 8#4 := by rw [h]
  have hval : s.refill.RDVAL = s.rawWord 0 := by rw [h]; rfl
  have hraw (j : Nat) : s.refill.rawWord j = s.rawWord (j + 1) := by rw [h]; rfl
  obtain hk | ⟨j, rfl⟩ := (lt_or_ge k 8).imp_right Nat.exists_eq_add_of_le'
  · simp [State.streamByte, hempty, hpos, hval, hk, Nat.div_eq_of_lt, Nat.mod_eq_of_lt]
  · simp [State.streamByte, hempty, hpos, hraw]

theorem toNat_sub_one_add_one {p : BitVec 4} (h : p ≠ 0#4) : (p - 1#4).toNat + 1 = p.toNat := by
  bv_omega

/-- A byte taken out of the residue moves the stream on by one. -/
theorem State.streamByte_shiftByte {s : State} (h : s.RDPOS ≠ 0#4) (k : Nat) :
    s.shiftByte.streamByte k = s.streamByte (k + 1) := by
  have hraw (j : Nat) : s.shiftByte.rawWord j = s.rawWord j := rfl
  rw [State.streamByte, State.streamByte, State.shiftByte_RDPOS, State.shiftByte_RDVAL, byteOf_ushiftRight,
    hraw, ← toNat_sub_one_add_one h]
  simp only [Nat.add_lt_add_iff_right, Nat.add_sub_add_right]

theorem State.refill_RDPOS_ne_zero (s : State) : s.refill.RDPOS ≠ 0#4 := by
  obtain ⟨hne, h⟩ | ⟨_, h⟩ := s.refill_cases <;> rw [h]
  exacts [hne, (by decide : 8#4 ≠ 0#4)]

/-- The lowest byte of the filled residue is the next byte of the stream. -/
theorem State.byteOf_refill_RDVAL (s : State) : byteOf s.refill.RDVAL 0 = s.streamByte 0 := by
  have hpos : 0 < s.refill.RDPOS.toNat := by
    have := s.refill_RDPOS_ne_zero
    bv_omega
  rw [← State.streamByte_refill, State.streamByte, if_pos hpos]

/-- What the loop of R119 gives out: the next bytes of the stream, and zeros above them. -/
theorem State.byteOf_bytesOut (c : Nat) (s : State) {k : Nat} (hk : k < 8) :
    byteOf (s.bytesOut c) k = if k < c then s.streamByte k else 0#8 := by
  induction c generalizing s k with
  | zero => simp [State.bytesOut, byteOf]
  | succ c ih =>
    cases k with
    | zero =>
      rw [State.bytesOut, byteOf_or_shiftLeft_zero, if_pos c.succ_pos]
      exact s.byteOf_refill_RDVAL
    | succ k =>
      rw [State.bytesOut, byteOf_or_shiftLeft_succ _ _ hk, ih _ (by omega),
        State.streamByte_shiftByte s.refill_RDPOS_ne_zero, State.streamByte_refill]
      simp only [Nat.succ_lt_succ_iff]

/-- The loop of R119 as long as the residue lasts. -/
theorem State.afterBytes_of_le {c : Nat} {s : State} (h : c ≤ s.RDPOS.toNat) :
    s.afterBytes c = { s with RDVAL := s.RDVAL >>> (8 * c), RDPOS := s.RDPOS - BitVec.ofNat 4 c } := by
  induction c generalizing s with
  | zero => simp [State.afterBytes]
  | succ c ih =>
    have hne : s.RDPOS ≠ 0#4 := by rintro h0; simp [h0] at h
    have hpred := toNat_sub_one_add_one hne
    have hpos : s.RDPOS - 1#4 - BitVec.ofNat 4 c = s.RDPOS - BitVec.ofNat 4 (c + 1) := by
      rw [BitVec.sub_sub, BitVec.add_comm, BitVec.ofNat_add]
    rw [State.afterBytes, State.refill, if_neg hne, ih (by rw [State.shiftByte_RDPOS]; omega),
      State.shiftByte_RDPOS, State.shiftByte_RDVAL, hpos, ← BitVec.shiftRight_add,
      show 8 + 8 * c = 8 * (c + 1) by ring]
    rfl

/-- The loop goes on from where it stands. -/
theorem State.afterBytes_add (b c : Nat) (s : State) :
    s.afterBytes (b + c) = (s.afterBytes b).afterBytes c := by
  induction b generalizing s with
  | zero => rw [Nat.zero_add, State.afterBytes]
  | succ b ih => rw [Nat.succ_add, State.afterBytes, ih, State.afterBytes]

/-- The loop fills an empty residue before anything else. -/
theorem State.afterBytes_refill {c : Nat} (hc : 0 < c) (s : State) :
    s.refill.afterBytes c = s.afterBytes c := by
  obtain ⟨c, rfl⟩ := Nat.exists_eq_succ_of_ne_zero hc.ne'
  rw [State.afterBytes, State.afterBytes, State.refill, if_neg s.refill_RDPOS_ne_zero]

/-- The loop of R119 past the residue: it empties the residue, fills it by one draw, and takes the rest out
of the drawn word. -/
theorem State.afterBytes_of_lt {c : Nat} {s : State} (h : s.RDPOS.toNat < c) (hc : c ≤ s.RDPOS.toNat + 8) :
    s.afterBytes c = { s with
      S := advance s.S
      RDVAL := s.drawn >>> (8 * (c - s.RDPOS.toNat))
      RDPOS := BitVec.ofNat 4 (s.RDPOS.toNat + 8 - c) } := by
  obtain ⟨b, rfl⟩ := Nat.exists_eq_add_of_le h.le
  have hb : b ≤ 8 := by omega
  have hempty : (s.afterBytes s.RDPOS.toNat).RDPOS = 0#4 := by
    rw [State.afterBytes_of_le le_rfl]; simp
  have hrefill : (s.afterBytes s.RDPOS.toNat).refill =
      { s with S := advance s.S, RDVAL := s.drawn, RDPOS := 8#4 } := by
    rw [State.refill, if_pos hempty, State.afterBytes_of_le le_rfl]
    rfl
  have hpos : 8#4 - BitVec.ofNat 4 b = BitVec.ofNat 4 (8 - b) := by bv_omega
  rw [State.afterBytes_add, ← State.afterBytes_refill (by omega), hrefill, State.afterBytes_of_le hb,
    Nat.add_sub_cancel_left, Nat.add_sub_add_left, hpos]

/-- A count that has a legal word runs the loop of R119 behind the guard. -/
theorem exec_rdbytes {c : BitVec 4} (hc : c.toNat ≤ 8) (s : State) :
    exec (.rdbytes c) s = whenSeeded s fun s => done (s.bytesOut c.toNat) (s.afterBytes c.toNat) :=
  if_neg (not_lt.2 hc)

/-- Settles O21: the loop's state in closed form, and its data byte by byte along the stream. -/
theorem rdbytesGivesOutTheStream : Obligations.RdbytesGivesOutTheStream := by
  refine ⟨fun _ => rfl, fun c s hc h => (exec_rdbytes hc s).trans (whenSeeded_eq_notSeeded h _),
    fun c s hc _ h => ⟨s.bytesOut c.toNat, ?_, fun k hk => ?_, fun k hck hk => ?_⟩⟩
  · rw [exec_rdbytes hc, whenSeeded_done h]
    split
    case isTrue hle => rw [State.afterBytes_of_le hle, BitVec.ofNat_toNat, BitVec.setWidth_eq]
    case isFalse hgt => rw [State.afterBytes_of_lt (by omega) (by omega), State.drawn]
  · rw [State.byteOf_bytesOut _ _ (by omega), if_pos hk]
  · rw [State.byteOf_bytesOut _ _ hk, if_neg (by omega)]

end Sys2Proof.Machine

/-! PROOFS. Family 41_bounded.md: the exact multipliers and the threshold as integers, one pass of a bounded
draw at either width, the four commands behind their bound checks, and whole runs. -/

namespace Sys2Proof.Machine

/-! ## The multipliers and the threshold (R142 to R146) -/

theorem lowHalf_toNat (v : Word) : (lowHalf v).toNat = v.toNat % 2 ^ 32 := by
  simp [lowHalf]

theorem highHalf_toNat (v : Word) : (highHalf v).toNat = v.toNat / 2 ^ 32 := by
  simp only [highHalf, BitVec.extractLsb'_toNat, Nat.shiftRight_eq_div_pow]
  omega

/-- A product of two half words leaves room in a word for two half words more, so the four-product
datapath loses no carry (R144). -/
theorem half_mul_half_le (a b : Half) : a.toNat * b.toNat ≤ (2 ^ 32 - 1) * (2 ^ 32 - 1) :=
  Nat.mul_le_mul (Nat.le_sub_one_of_lt a.isLt) (Nat.le_sub_one_of_lt b.isLt)

/-- R142. -/
theorem mul32_toNat (a b : Half) : (mul32 a b).toNat = a.toNat * b.toNat := by
  have hle := half_mul_half_le a b
  rw [mul32, BitVec.toNat_mul, BitVec.toNat_setWidth_of_le (by decide), BitVec.toNat_setWidth_of_le (by decide)]
  exact Nat.mod_eq_of_lt (by omega)

/-- The schoolbook product of two words over their halves. -/
theorem mul_toNat_eq_halves (a b : Word) :
    a.toNat * b.toNat =
      (highHalf a).toNat * (highHalf b).toNat * 2 ^ 64 +
      ((lowHalf a).toNat * (highHalf b).toNat + (highHalf a).toNat * (lowHalf b).toNat) * 2 ^ 32 +
      (lowHalf a).toNat * (lowHalf b).toNat := by
  have split (v : Word) : v.toNat = (highHalf v).toNat * 2 ^ 32 + (lowHalf v).toNat := by
    rw [lowHalf_toNat, highHalf_toNat]; omega
  rw [split a, split b]
  ring

/-- R143: no sum of the four-product datapath overflows. -/
theorem mul64_exact (a b : Word) :
    (mul64 a b).hi.toNat * 2 ^ 64 + (mul64 a b).lo.toNat = a.toNat * b.toNat := by
  have h00 := half_mul_half_le (lowHalf a) (lowHalf b)
  have h01 := half_mul_half_le (lowHalf a) (highHalf b)
  have h10 := half_mul_half_le (highHalf a) (lowHalf b)
  have h11 := half_mul_half_le (highHalf a) (highHalf b)
  have join (x y : Half) : (x ++ y : Word).toNat = x.toNat * 2 ^ 32 + y.toNat := by
    rw [BitVec.toNat_append, ← Nat.shiftLeft_add_eq_or_of_lt y.isLt, Nat.shiftLeft_eq]
  rw [mul_toNat_eq_halves]
  simp only [mul64, join, BitVec.toNat_add, BitVec.toNat_setWidth, lowHalf_toNat, highHalf_toNat, mul32_toNat]
    at h00 h01 h10 h11 ⊢
  omega

/-- Settles O23: the 32-bit product fits a word, and the partial sums of the 64-bit one do too. -/
theorem wideningMultipliesAreExact : Obligations.WideningMultipliesAreExact :=
  ⟨mul32_toNat, mul64_exact⟩

/-- The halves of an exact double-width product are the remainder and the quotient by `2^w`. -/
theorem Halves.toNat_of_exact {w v n : Nat} {p : Halves w} (h : p.hi.toNat * 2 ^ w + p.lo.toNat = v * n) :
    p.lo.toNat = lowPart w n v ∧ p.hi.toNat = highPart w n v := by
  rw [lowPart, highPart, ← h, Nat.mul_add_mod', Nat.mod_eq_of_lt p.lo.isLt, Nat.mul_comm,
    Nat.mul_add_div (Nat.two_pow_pos w), Nat.div_eq_of_lt p.lo.isLt]
  exact ⟨rfl, rfl⟩

theorem mul64_toNat (v n : Word) :
    (mul64 v n).lo.toNat = lowPart 64 n.toNat v.toNat ∧ (mul64 v n).hi.toNat = highPart 64 n.toNat v.toNat :=
  Halves.toNat_of_exact (mul64_exact v n)

theorem product32_toNat (v n : Half) :
    (product32 v n).lo.toNat = lowPart 32 n.toNat v.toNat ∧
      (product32 v n).hi.toNat = highPart 32 n.toNat v.toNat := by
  apply Halves.toNat_of_exact
  rw [← mul32_toNat, product32, lowHalf_toNat, highHalf_toNat]
  omega

/-- R140: the high half of a raw word's product with the bound is below the bound. -/
theorem highPart_lt {w n v : Nat} (hn : 0 < n) (hv : v < 2 ^ w) : highPart w n v < n :=
  Nat.div_lt_of_lt_mul (Nat.mul_lt_mul_of_pos_right hv hn)

/-- R146: the two's-complement negation of a bound above 0 is `2^w - n`. -/
theorem threshold_toNat {w : Nat} {n : BitVec w} (hn : n ≠ 0#w) :
    (threshold n).toNat = thresholdNat w n.toNat := by
  have hpos : 0 < n.toNat := Nat.pos_of_ne_zero fun h => hn (BitVec.eq_of_toNat_eq (by simpa using h))
  rw [threshold, BitVec.toNat_umod, BitVec.toNat_neg,
    Nat.mod_eq_of_lt (Nat.sub_lt (Nat.two_pow_pos w) hpos), thresholdNat]

theorem threshold_eq_ofNat {w : Nat} {n : BitVec w} (hn : n ≠ 0#w) :
    threshold n = BitVec.ofNat w (thresholdNat w n.toNat) := by
  rw [← threshold_toNat hn, BitVec.ofNat_toNat, BitVec.setWidth_eq]

/-- R147: the threshold is below the bound, so the first test leaves the verdict to the threshold. -/
theorem judgeFirst_eq_judgeRedraw {w : Nat} {n : BitVec w} (hn : n ≠ 0#w) (p : Halves w) :
    judgeFirst n p = judgeRedraw (threshold n) p := by
  have hlt : threshold n < n := BitVec.umod_lt _ ((BitVec.pos_iff_ne_zero n).2 hn)
  rw [judgeFirst, judgeRedraw]
  split
  case isTrue => rfl
  case isFalse hge => rw [if_neg fun h => hge (BitVec.lt_trans h hlt)]

theorem judgeRedraw_eq {w : Nat} (thr : BitVec w) (p : Halves w) :
    judgeRedraw thr p = if p.lo.toNat < thr.toNat then .reject thr else .accept p.hi := rfl

/-! ## One pass of a bounded draw (R141) -/

/-- The threshold a 32-bit pass compares with: the latched one in the redraw loop, the computed one else. -/
def State.threshold32 (n : Half) (s : State) : Half :=
  match s.pos with
  | .redraw32 thr => thr
  | .start | .redraw64 _ | .tail _ => threshold n

/-- The threshold a 64-bit pass compares with: the latched one in the redraw loop, the computed one else. -/
def State.threshold64 (n : Word) (s : State) : Word :=
  match s.pos with
  | .redraw64 thr => thr
  | .start | .redraw32 _ | .tail _ => threshold n

theorem verdict32_eq {n : Half} (hn : n ≠ 0#32) (s : State) :
    verdict32 n s = judgeRedraw (s.threshold32 n) (product32 s.drawn32 n) := by
  cases hpos : s.pos <;> simp [verdict32, State.threshold32, hpos, judgeFirst_eq_judgeRedraw hn]

theorem verdict64_eq {n : Word} (hn : n ≠ 0#64) (s : State) :
    verdict64 n s = judgeRedraw (s.threshold64 n) (mul64 s.drawn n) := by
  cases hpos : s.pos <;> simp [verdict64, State.threshold64, hpos, judgeFirst_eq_judgeRedraw hn]

theorem rawWord_zero (s : State) : s.rawWord 0 = s.drawn := rfl

theorem drawn32_toNat (s : State) : s.drawn32.toNat = (s.rawWord 0).toNat % 2 ^ 32 :=
  lowHalf_toNat s.drawn

theorem lemire32_one (s : State) : lemire32 1#32 s = .next (s.answered 0#4 0#64) := rfl

theorem lemire64_one (s : State) : lemire64 1#64 s = .next (s.answered 0#4 0#64) := rfl

/-- One pass of `LEMIRE(32, n)` over the integers, at every position. -/
theorem lemire32_eq {n : Half} (hn : 1 < n.toNat) (s : State) :
    lemire32 n s = .next (
      if lowPart 32 n.toNat ((s.rawWord 0).toNat % 2 ^ 32) < (s.threshold32 n).toNat
      then { s.drew with pos := .redraw32 (s.threshold32 n) }
      else s.drew.answered 0#4
        (BitVec.ofNat 64 (highPart 32 n.toNat ((s.rawWord 0).toNat % 2 ^ 32)))) := by
  obtain ⟨hlo, hhi⟩ := product32_toNat s.drawn32 n
  rw [lemire32, if_neg (by rintro rfl; exact absurd hn (by decide)),
    verdict32_eq (by rintro rfl; exact absurd hn (by decide)), judgeRedraw_eq, hlo,
    ← drawn32_toNat, ← hhi, BitVec.ofNat_toNat]
  split_ifs <;> rfl

/-- One pass of `LEMIRE(64, n)` over the integers, at every position. -/
theorem lemire64_eq {n : Word} (hn : 1 < n.toNat) (s : State) :
    lemire64 n s = .next (
      if lowPart 64 n.toNat (s.rawWord 0).toNat < (s.threshold64 n).toNat
      then { s.drew with pos := .redraw64 (s.threshold64 n) }
      else s.drew.answered 0#4 (BitVec.ofNat 64 (highPart 64 n.toNat (s.rawWord 0).toNat))) := by
  obtain ⟨hlo, hhi⟩ := mul64_toNat s.drawn n
  rw [rawWord_zero, lemire64, if_neg (by rintro rfl; exact absurd hn (by decide)),
    verdict64_eq (by rintro rfl; exact absurd hn (by decide)), judgeRedraw_eq, hlo, ← hhi,
    BitVec.ofNat_toNat, BitVec.setWidth_eq]
  split_ifs <;> rfl

theorem dataField_answered_ok (s : State) (v : Word) : dataField (s.answered 0#4 v).RSP = v :=
  dataField_mkResponse .ok v

/-- A pass that rejects its word does not end, so one that ends gives the data of the accepted word. -/
theorem answered_below {rejects : Prop} [Decidable rejects] {s rejected t : State} {r m : Nat} (hr : r < m)
    (h : (.next (if rejects then rejected else s.answered 0#4 (BitVec.ofNat 64 r)) : Result) = .next t)
    (hbusy : rejected.BUSY = true) (hend : t.BUSY = false) :
    (dataField t.RSP).toNat < m := by
  split at h
  case isTrue =>
    cases h
    exact absurd (hbusy.symm.trans hend) (by decide)
  case isFalse =>
    cases h
    rw [dataField_answered_ok, BitVec.toNat_ofNat]
    exact (Nat.mod_le _ _).trans_lt hr

/-- R140 for `LEMIRE(32, n)`: a pass that ends the draw gives data below the bound. -/
theorem lemire32_ends_below {n : Half} {s t : State} (hn : n ≠ 0#32) (hbusy : s.BUSY = true)
    (h : lemire32 n s = .next t) (hend : t.BUSY = false) : (dataField t.RSP).toNat < n.toNat := by
  obtain rfl | hone := eq_or_ne n 1#32
  · cases h
    simp
  have hn1 : 1 < n.toNat := by bv_omega
  have hlt := highPart_lt (Nat.zero_lt_of_lt hn1) (Nat.mod_lt (s.rawWord 0).toNat (Nat.two_pow_pos 32))
  rw [lemire32_eq hn1] at h
  exact answered_below hlt h hbusy hend

/-- R140 for `LEMIRE(64, n)`: a pass that ends the draw gives data below the bound. -/
theorem lemire64_ends_below {n : Word} {s t : State} (hn : n ≠ 0#64) (hbusy : s.BUSY = true)
    (h : lemire64 n s = .next t) (hend : t.BUSY = false) : (dataField t.RSP).toNat < n.toNat := by
  obtain rfl | hone := eq_or_ne n 1#64
  · cases h
    simp
  have hn1 : 1 < n.toNat := by bv_omega
  have hlt := highPart_lt (Nat.zero_lt_of_lt hn1) (s.rawWord 0).isLt
  rw [lemire64_eq hn1] at h
  exact answered_below hlt h hbusy hend

/-- A command that is one pass of `LEMIRE(32, n)` for every bound above 0 answers as R141 says. -/
theorem lemire32Pass_of_exec {i : Instr} {n : Half} {s : State} (h : n ≠ 0#32 → exec i s = lemire32 n s) :
    Lemire32Pass i n s := by
  refine ⟨?_, fun hn hpos => ?_, fun latched hn hpos => ?_⟩
  · rintro rfl
    exact (h (by decide)).trans (lemire32_one s)
  · have h0 : n ≠ 0#32 := by bv_omega
    rw [h h0, lemire32_eq hn, State.threshold32, hpos, threshold_toNat h0, threshold_eq_ofNat h0]
  · have hdrew : { s.drew with pos := .redraw32 latched } = s.drew := by rw [← hpos]; rfl
    rw [h (by bv_omega), lemire32_eq hn, State.threshold32, hpos, hdrew]

/-- A command that is one pass of `LEMIRE(64, n)` for every bound above 0 answers as R141 says. -/
theorem lemire64Pass_of_exec {i : Instr} {n : Word} {s : State} (h : n ≠ 0#64 → exec i s = lemire64 n s) :
    Lemire64Pass i n s := by
  refine ⟨?_, fun hn hpos => ?_, fun latched hn hpos => ?_⟩
  · rintro rfl
    exact (h (by decide)).trans (lemire64_one s)
  · have h0 : n ≠ 0#64 := by bv_omega
    rw [h h0, lemire64_eq hn, State.threshold64, hpos, threshold_toNat h0, threshold_eq_ofNat h0]
  · have hdrew : { s.drew with pos := .redraw64 latched } = s.drew := by rw [← hpos]; rfl
    rw [h (by bv_omega), lemire64_eq hn, State.threshold64, hpos, hdrew]

/-! ## The four commands: a draw behind two guards (R148, R149, R152, R153) -/

/-- What the four bounded commands share: `NotSeeded` first, then a bad bound, then a pass of the draw. -/
def guardedDraw (bad : Bool) (draw : State → Result) (s : State) : Result :=
  whenSeeded s fun s => if bad then raise .invalidArgument s else draw s

theorem exec_bound32 (n : Half) (s : State) :
    exec (.bound32 n) s = guardedDraw (badUnsignedBound n) (lemire32 n) s := rfl

theorem exec_bound64 (n : Word) (s : State) :
    exec (.bound64 n) s = guardedDraw (badUnsignedBound n) (lemire64 n) s := rfl

theorem exec_int31n (n : Half) (s : State) :
    exec (.int31n n) s = guardedDraw (badSignedBound n) (lemire32 n) s := rfl

theorem exec_int63n (n : Word) (s : State) :
    exec (.int63n n) s = guardedDraw (badSignedBound n) (lemire64 n) s := rfl

theorem guardedDraw_of_unseeded {s : State} (h : s.SEEDED = false) (bad : Bool) (draw : State → Result) :
    guardedDraw bad draw s = .next (s.answered 4#4 0#64) :=
  whenSeeded_eq_notSeeded h _

theorem guardedDraw_of_bad {s : State} (h : s.SEEDED = true) {bad : Bool} (hbad : bad = true)
    (draw : State → Result) : guardedDraw bad draw s = .next (s.answered 1#4 0#64) := by
  rw [guardedDraw, whenSeeded_of_seeded h, if_pos hbad]
  rfl

theorem guardedDraw_of_good {s : State} (h : s.SEEDED = true) {bad : Bool} (hgood : bad = false)
    (draw : State → Result) : guardedDraw bad draw s = draw s := by
  rw [guardedDraw, whenSeeded_of_seeded h, hgood]
  rfl

/-- A guarded draw ends with an error and data 0, or its bound is good and it takes a pass of the draw. -/
theorem guardedDraw_cases {bad : Bool} {draw : State → Result} {s t : State}
    (h : guardedDraw bad draw s = .next t) :
    (statusField t.RSP ≠ 0#4 ∧ dataField t.RSP = 0#64) ∨ (bad = false ∧ draw s = .next t) := by
  have raised {st : Status} (hst : st.code ≠ 0#4) (ht : .next (s.finish st 0#64) = (.next t : Result)) :
      statusField t.RSP ≠ 0#4 ∧ dataField t.RSP = 0#64 := by
    cases ht
    simpa using hst
  cases hs : s.SEEDED with
  | false => exact .inl (raised (st := .notSeeded) (by decide) (h ▸ guardedDraw_of_unseeded hs _ _).symm)
  | true =>
    cases bad with
    | true => exact .inl (raised (st := .invalidArgument) (by decide) (h ▸ guardedDraw_of_bad hs rfl _).symm)
    | false => exact .inr ⟨rfl, (guardedDraw_of_good hs rfl draw).symm.trans h⟩

theorem badUnsignedBound_eq_false {w : Nat} {n : BitVec w} : badUnsignedBound n = false ↔ n ≠ 0#w := by
  simp [badUnsignedBound]

/-- The bounds R152 and R153 refuse: those that are not positive as signed numbers. -/
theorem badSignedBound_eq_true {w : Nat} {n : BitVec w} : badSignedBound n = true ↔ n.toInt ≤ 0 := by
  rw [badSignedBound, Bool.or_eq_true, BitVec.msb_eq_toInt, decide_eq_true_eq, beq_iff_eq,
    ← BitVec.toInt_inj, BitVec.toInt_zero, le_iff_lt_or_eq]

theorem badSignedBound_eq_false {w : Nat} {n : BitVec w} : badSignedBound n = false ↔ 0 < n.toInt := by
  rw [← Bool.not_eq_true, badSignedBound_eq_true, not_le]

theorem ne_zero_of_toInt_pos {w : Nat} {n : BitVec w} (h : 0 < n.toInt) : n ≠ 0#w := by
  rintro rfl
  exact absurd h (by simp)

/-- Settles O28: the guards of R148, then passes of `LEMIRE(32, n)`. -/
theorem bound32AnswersByLemire : Obligations.Bound32AnswersByLemire :=
  ⟨fun _ => rfl, fun _ _ h => guardedDraw_of_unseeded h _ _, fun _ h => guardedDraw_of_bad h rfl _,
    fun _ _ h => lemire32Pass_of_exec fun hn => guardedDraw_of_good h (badUnsignedBound_eq_false.2 hn) _⟩

/-- Settles O29: the guards of R149, then passes of `LEMIRE(64, n)`. -/
theorem bound64AnswersByLemire : Obligations.Bound64AnswersByLemire :=
  ⟨fun _ => rfl, fun _ _ h => guardedDraw_of_unseeded h _ _, fun _ h => guardedDraw_of_bad h rfl _,
    fun _ _ h => lemire64Pass_of_exec fun hn => guardedDraw_of_good h (badUnsignedBound_eq_false.2 hn) _⟩

/-- A guarded 32-bit draw that ends gives data 0 with an error, or data below its bound. -/
theorem guardedDraw32_ends {bad : Bool} {n : Half} (hbad : bad = false → n ≠ 0#32) {s t : State}
    (hbusy : s.BUSY = true) (h : guardedDraw bad (lemire32 n) s = .next t) (hend : t.BUSY = false) :
    (statusField t.RSP ≠ 0#4 ∧ dataField t.RSP = 0#64) ∨
      (bad = false ∧ (dataField t.RSP).toNat < n.toNat) :=
  (guardedDraw_cases h).imp_right fun ⟨hgood, hdraw⟩ =>
    ⟨hgood, lemire32_ends_below (hbad hgood) hbusy hdraw hend⟩

/-- A guarded 64-bit draw that ends gives data 0 with an error, or data below its bound. -/
theorem guardedDraw64_ends {bad : Bool} {n : Word} (hbad : bad = false → n ≠ 0#64) {s t : State}
    (hbusy : s.BUSY = true) (h : guardedDraw bad (lemire64 n) s = .next t) (hend : t.BUSY = false) :
    (statusField t.RSP ≠ 0#4 ∧ dataField t.RSP = 0#64) ∨
      (bad = false ∧ (dataField t.RSP).toNat < n.toNat) :=
  (guardedDraw_cases h).imp_right fun ⟨hgood, hdraw⟩ =>
    ⟨hgood, lemire64_ends_below (hbad hgood) hbusy hdraw hend⟩

theorem ne_zero_of_badSignedBound {w : Nat} {n : BitVec w} (h : badSignedBound n = false) : n ≠ 0#w :=
  ne_zero_of_toInt_pos (badSignedBound_eq_false.1 h)

/-- On a bound that is positive as a signed number `INT31N` is `BOUND32` (R152). -/
theorem exec_int31n_eq_bound32 {n : Half} (hn : 0 < n.toInt) (s : State) :
    exec (.int31n n) s = exec (.bound32 n) s := by
  rw [exec_int31n, exec_bound32, badSignedBound_eq_false.2 hn,
    badUnsignedBound_eq_false.2 (ne_zero_of_toInt_pos hn)]

/-- On a bound that is positive as a signed number `INT63N` is `BOUND64` (R153). -/
theorem exec_int63n_eq_bound64 {n : Word} (hn : 0 < n.toInt) (s : State) :
    exec (.int63n n) s = exec (.bound64 n) s := by
  rw [exec_int63n, exec_bound64, badSignedBound_eq_false.2 hn,
    badUnsignedBound_eq_false.2 (ne_zero_of_toInt_pos hn)]

/-- A word below a bound that is positive as a signed number keeps its top bit clear. -/
theorem two_mul_lt_of_lt_toInt_pos {w m : Nat} {n : BitVec w} (hn : 0 < n.toInt) (hm : m < n.toNat) :
    2 * m < 2 ^ w := by
  have := BitVec.toInt_pos_iff.1 hn.le
  omega

/-- Settles O30: the guards of R152, `BOUND32` on the same bits, and the result's bit 31 from R140. -/
theorem int31nAnswersBySignedBound : Obligations.Int31nAnswersBySignedBound := by
  refine ⟨fun _ => rfl, fun _ _ h => guardedDraw_of_unseeded h _ _,
    fun _ _ h hn => guardedDraw_of_bad h (badSignedBound_eq_true.2 hn) _, fun n s h hn => ⟨?_, ?_⟩,
    fun n s t hbusy h hend => ?_⟩
  · exact lemire32Pass_of_exec fun _ => guardedDraw_of_good h (badSignedBound_eq_false.2 hn) _
  · exact exec_int31n_eq_bound32 hn s
  · obtain ⟨_, hzero⟩ | ⟨hgood, hlt⟩ := guardedDraw32_ends ne_zero_of_badSignedBound hbusy h hend
    · rw [hzero]; decide
    · have := two_mul_lt_of_lt_toInt_pos (badSignedBound_eq_false.1 hgood) hlt
      omega

/-- Settles O31: the guards of R153, `BOUND64` on the same bits, and the result's sign from R140. -/
theorem int63nAnswersBySignedBound : Obligations.Int63nAnswersBySignedBound := by
  refine ⟨fun _ => rfl, fun _ _ h => guardedDraw_of_unseeded h _ _,
    fun _ _ h hn => guardedDraw_of_bad h (badSignedBound_eq_true.2 hn) _, fun n s h hn => ⟨?_, ?_⟩,
    fun n s t hbusy h hend => ?_⟩
  · exact lemire64Pass_of_exec fun _ => guardedDraw_of_good h (badSignedBound_eq_false.2 hn) _
  · exact exec_int63n_eq_bound64 hn s
  · obtain ⟨_, hzero⟩ | ⟨hgood, hlt⟩ := guardedDraw64_ends ne_zero_of_badSignedBound hbusy h hend
    · rw [hzero]; decide
    · exact BitVec.toInt_pos_iff.2 (two_mul_lt_of_lt_toInt_pos (badSignedBound_eq_false.1 hgood) hlt)

/-- Settles O34: an end with `OK` is no error, so it is a draw's, at whatever position. -/
theorem boundedResultBelowBound : Obligations.BoundedResultBelowBound := by
  have below {status : BitVec 4} {data : Word} {bad : Bool} {m : Nat} (hok : status = 0#4)
      (h : (status ≠ 0#4 ∧ data = 0#64) ∨ (bad = false ∧ data.toNat < m)) : data.toNat < m :=
    (h.resolve_left fun herr => herr.1 hok).2
  constructor
  · rintro n _ s t (rfl | rfl) hbusy h hend hok
    · exact below hok (guardedDraw32_ends badUnsignedBound_eq_false.1 hbusy h hend)
    · exact below hok (guardedDraw32_ends ne_zero_of_badSignedBound hbusy h hend)
  · rintro n _ s t (rfl | rfl) hbusy h hend hok
    · exact below hok (guardedDraw64_ends badUnsignedBound_eq_false.1 hbusy h hend)
    · exact below hok (guardedDraw64_ends ne_zero_of_badSignedBound hbusy h hend)

/-! ## Whole runs (R141, R270) -/

/-- While a command runs and the host leaves the block alone, the step is a pass of the command. -/
theorem State.Running.step_eq {s : State} {i : Instr} (h : s.Running i) : step s = exec i s := by
  obtain ⟨hbusy, hevents, hdecode⟩ := h
  rw [step_of_running hbusy hevents, sequencerStep, hdecode]

/-- A run of any machine takes its first step and goes on from there. -/
theorem core_run_succ {M : Host.Core} {s t : M.State} (h : M.step s = .next t) (k : Nat) :
    M.run (k + 1) s = M.run k t := by
  rw [Host.Core.run, h]

theorem run_succ {s t : State} (h : step s = .next t) (k : Nat) : run (k + 1) s = run k t :=
  core_run_succ (M := core) h k

theorem run_one {s t : State} (h : step s = .next t) : run 1 s = .next t := run_succ h 0

/-- A loop that redraws while `low` of the raw word is below `thr` ends at the first word that clears it, by
induction on the number of rejected words: a rejected word leaves the block in the loop with one draw made. -/
theorem run_until_accepted {i : Instr} {loop : Position} {low : Word → Nat} {thr : Nat}
    {result : Word → Word}
    (hpass : ∀ s : State, s.SEEDED = true → (s.pos = .start ∨ s.pos = loop) →
      exec i s = .next (if low (s.rawWord 0) < thr then { s.drew with pos := loop }
        else s.drew.answered 0#4 (result (s.rawWord 0))))
    {k : Nat} {s : State} (hrun : s.Running i) (hseeded : s.SEEDED = true)
    (hpos : s.pos = .start ∨ s.pos = loop) (hrejected : ∀ j < k, low (s.rawWord j) < thr)
    (haccepted : thr ≤ low (s.rawWord k)) :
    run (k + 1) s = .next
      ({ s with S := advance^[k + 1] s.S, pos := if k = 0 then s.pos else loop }.answered 0#4
        (result (s.rawWord k))) := by
  induction k generalizing s with
  | zero =>
    apply run_one
    rw [hrun.step_eq, hpass s hseeded hpos, if_neg (not_lt.2 haccepted)]
    rfl
  | succ k ih =>
    have hstep : step s = .next { s.drew with pos := loop } := by
      rw [hrun.step_eq, hpass s hseeded hpos, if_pos (hrejected 0 k.succ_pos)]
    rw [run_succ hstep, ih (s := { s.drew with pos := loop }) hrun hseeded (.inr rfl)
      (fun j hj => hrejected (j + 1) (Nat.succ_lt_succ hj)) haccepted, ite_self, if_neg k.succ_ne_zero]
    rfl

/-- Both 32-bit commands are one pass of `LEMIRE(32, n)` on a bound they take. -/
theorem exec_eq_lemire32 {n : Half} {i : Instr} (hi : i = .bound32 n ∨ (i = .int31n n ∧ 0 < n.toInt))
    (hn : n ≠ 0#32) {s : State} (h : s.SEEDED = true) : exec i s = lemire32 n s := by
  obtain rfl | ⟨rfl, hpos⟩ := hi
  · exact guardedDraw_of_good h (badUnsignedBound_eq_false.2 hn) _
  · exact guardedDraw_of_good h (badSignedBound_eq_false.2 hpos) _

/-- Both 64-bit commands are one pass of `LEMIRE(64, n)` on a bound they take. -/
theorem exec_eq_lemire64 {n : Word} {i : Instr} (hi : i = .bound64 n ∨ (i = .int63n n ∧ 0 < n.toInt))
    (hn : n ≠ 0#64) {s : State} (h : s.SEEDED = true) : exec i s = lemire64 n s := by
  obtain rfl | ⟨rfl, hpos⟩ := hi
  · exact guardedDraw_of_good h (badUnsignedBound_eq_false.2 hn) _
  · exact guardedDraw_of_good h (badSignedBound_eq_false.2 hpos) _

theorem State.threshold32_of_pos {n : Half} {s : State} (h : s.pos = .start ∨ s.pos = .redraw32 (threshold n)) :
    s.threshold32 n = threshold n := by
  obtain h | h := h <;> rw [State.threshold32, h]

theorem State.threshold64_of_pos {n : Word} {s : State} (h : s.pos = .start ∨ s.pos = .redraw64 (threshold n)) :
    s.threshold64 n = threshold n := by
  obtain h | h := h <;> rw [State.threshold64, h]

/-- Settles O32: a pass at bound 1 ends at once, and above 1 the passes of R141 are such a loop. -/
theorem boundedRunReturnsFirstAcceptedWord : Obligations.BoundedRunReturnsFirstAcceptedWord := by
  refine ⟨fun i s hi hrun hseeded => run_one (hrun.step_eq.trans ?_),
    fun n i s k hi hrun hstart hseeded hn hrejected haccepted => ?_,
    fun n i s k hi hrun hstart hseeded hn hrejected haccepted => ?_⟩
  · obtain rfl | rfl | rfl | rfl := hi <;> exact guardedDraw_of_good hseeded rfl _
  · have h0 : n ≠ 0#32 := by bv_omega
    rw [← threshold_eq_ofNat h0, ← hstart]
    refine run_until_accepted (low := fun v => lowPart 32 n.toNat (v.toNat % 2 ^ 32))
      (result := fun v => BitVec.ofNat 64 (highPart 32 n.toNat (v.toNat % 2 ^ 32)))
      (fun s hseeded hpos => ?_) hrun hseeded (.inl hstart) hrejected haccepted
    rw [exec_eq_lemire32 hi h0 hseeded, lemire32_eq hn, State.threshold32_of_pos hpos, threshold_toNat h0]
  · have h0 : n ≠ 0#64 := by bv_omega
    rw [← threshold_eq_ofNat h0, ← hstart]
    refine run_until_accepted (low := fun v => lowPart 64 n.toNat v.toNat)
      (result := fun v => BitVec.ofNat 64 (highPart 64 n.toNat v.toNat))
      (fun s hseeded hpos => ?_) hrun hseeded (.inl hstart) hrejected haccepted
    rw [exec_eq_lemire64 hi h0 hseeded, lemire64_eq hn, State.threshold64_of_pos hpos, threshold_toNat h0]

end Sys2Proof.Machine

/-! PROOFS. Family 42_ziggurat.md: the order of the patterns and of the values they stand for, the
sign bit, and one iteration of `EXP`. -/

namespace Sys2Proof.Machine

/-! ## The order of values (R173) -/

/-- The value of a finite pattern with sign bit 0, by its magnitude. -/
def magnitudeValue (m : Nat) : ℚ :=
  if m / 2 ^ 52 = 0 then ((m % 2 ^ 52 : Nat) : ℚ) * (2 : ℚ) ^ (-1074 : ℤ)
  else ((2 : ℚ) ^ 52 + (m % 2 ^ 52 : Nat)) * (2 : ℚ) ^ (((m / 2 ^ 52 : Nat) : ℤ) - 1075)

theorem value_eq_magnitudeValue (a : Word) :
    value a = (if a.msb then -1 else 1) * magnitudeValue (magnitude a) := by
  rw [value, exponentField_eq_magnitude_div, fractionField_eq_magnitude_mod, magnitudeValue]

theorem magnitudeValue_zero : magnitudeValue 0 = 0 := by simp [magnitudeValue]

/-- The value is linear between the magnitudes of exponent field `k + 1`, on to the carry into field `k + 2`,
and for `k = 0` from the subnormals on: both magnitudes around a carry lie on one line. -/
theorem magnitudeValue_eq {k m : Nat} (hlo : k = 0 ∨ (k + 1) * 2 ^ 52 ≤ m) (hhi : m ≤ (k + 2) * 2 ^ 52) :
    magnitudeValue m = ((m : ℚ) - k * 2 ^ 52) * (2 : ℚ) ^ ((k : ℤ) - 1074) := by
  have hm : ((m / 2 ^ 52 : Nat) : ℚ) * 2 ^ 52 + (m % 2 ^ 52 : Nat) = m := by
    exact_mod_cast Nat.div_add_mod' m (2 ^ 52)
  obtain ⟨rfl, hE⟩ | hE | ⟨hE, hf⟩ : (k = 0 ∧ m / 2 ^ 52 = 0) ∨ m / 2 ^ 52 = k + 1 ∨
      (m / 2 ^ 52 = k + 1 + 1 ∧ m % 2 ^ 52 = 0) := by omega
  · rw [magnitudeValue, if_pos hE, ← hm, hE, Nat.cast_zero, Nat.cast_zero, zero_mul, zero_add, sub_zero,
      zero_sub]
  · rw [magnitudeValue, if_neg (by omega), ← hm, hE, show ((k + 1 : Nat) : ℤ) - 1075 = k - 1074 by omega]
    push_cast
    ring
  · rw [magnitudeValue, if_neg (by omega), ← hm, hE, hf,
      show ((k + 1 + 1 : Nat) : ℤ) - 1075 = k - 1074 + 1 by omega, zpow_add_one₀ two_ne_zero]
    push_cast
    ring

theorem magnitudeValue_strictMono : StrictMono magnitudeValue := by
  refine strictMono_nat_of_lt_succ fun m => ?_
  have hlo : m / 2 ^ 52 - 1 = 0 ∨ (m / 2 ^ 52 - 1 + 1) * 2 ^ 52 ≤ m := by omega
  have hhi : m + 1 ≤ (m / 2 ^ 52 - 1 + 2) * 2 ^ 52 := by omega
  rw [magnitudeValue_eq hlo (by omega), magnitudeValue_eq (hlo.imp_right Nat.le_succ_of_le) hhi]
  gcongr
  exact m.lt_succ_self

/-- The value at a place of the signed order: the magnitudes, mirrored at 0. -/
def keyValue (k : Int) : ℚ := magnitudeValue k.toNat - magnitudeValue (-k).toNat

theorem keyValue_strictMono : StrictMono keyValue := by
  intro k l h
  have hup : magnitudeValue k.toNat ≤ magnitudeValue l.toNat :=
    magnitudeValue_strictMono.monotone (by omega)
  have hdown : magnitudeValue (-l).toNat ≤ magnitudeValue (-k).toNat :=
    magnitudeValue_strictMono.monotone (by omega)
  rw [keyValue, keyValue]
  obtain hl | hl := lt_or_ge 0 l
  · linarith [@magnitudeValue_strictMono k.toNat l.toNat (by omega)]
  · linarith [@magnitudeValue_strictMono (-l).toNat (-k).toNat (by omega)]

/-- The order key of a pattern stands where its value does; both zeros stand at 0. -/
theorem value_eq_keyValue (a : Word) : value a = keyValue (orderKey a) := by
  rw [value_eq_magnitudeValue, orderKey]
  cases a.msb <;> simp [keyValue, signed, magnitudeValue_zero]

/-- The number or infinity at a place of the signed order, from minus to plus the magnitude of infinity. -/
noncomputable def keyPlace (k : Int) : EReal :=
  if k ≤ -infMag then ⊥ else if infMag ≤ k then ⊤ else ((keyValue k : ℝ) : EReal)

theorem keyPlace_strictMonoOn : StrictMonoOn keyPlace (Set.Icc (-infMag) infMag) := by
  rintro k ⟨hk, -⟩ l ⟨-, hl⟩ hkl
  have hfin : ¬ (infMag : Int) ≤ k := by omega
  have hfin' : ¬ l ≤ -(infMag : Int) := by omega
  rw [keyPlace, keyPlace, if_neg hfin, if_neg hfin']
  split_ifs
  · exact bot_lt_top
  · exact EReal.bot_lt_coe _
  · exact EReal.coe_lt_top _
  · exact EReal.coe_lt_coe (Rat.cast_lt.2 (keyValue_strictMono hkl))

theorem magnitude_lt (a : Word) : magnitude a < 2 ^ 63 := BitVec.isLt _

theorem isFinite_iff {a : Word} : isFinite a = true ↔ magnitude a < infMag := by
  have := magnitude_lt a
  rw [isFinite, bne_iff_ne, exponentField_eq_magnitude_div, infMag]
  omega

theorem isNaN_eq_false_iff {a : Word} : isNaN a = false ↔ magnitude a ≤ infMag := by
  have := magnitude_lt a
  rw [isNaN, Bool.and_eq_false_iff, beq_eq_false_iff_ne, bne_eq_false_iff_eq,
    exponentField_eq_magnitude_div, fractionField_eq_magnitude_mod, infMag]
  omega

theorem abs_orderKey (a : Word) : |orderKey a| = magnitude a := by
  rw [orderKey, signed]
  split <;> simp

theorem orderKey_mem {a : Word} (h : isNaN a = false) : orderKey a ∈ Set.Icc (-infMag : Int) infMag :=
  abs_le.1 ((abs_orderKey a).trans_le (Int.ofNat_le.2 (isNaN_eq_false_iff.1 h)))

/-- A pattern that is no NaN stands for the number or infinity at its order key. -/
theorem extendedValue_eq_keyPlace {a : Word} (h : isNaN a = false) :
    extendedValue a = keyPlace (orderKey a) := by
  obtain hlt | heq := (isNaN_eq_false_iff.1 h).lt_or_eq
  · obtain ⟨hlo, hhi⟩ := abs_lt.1 ((abs_orderKey a).trans_lt (Int.ofNat_lt.2 hlt))
    rw [extendedValue, if_pos (isFinite_iff.2 hlt), keyPlace, if_neg hlo.not_ge, if_neg hhi.not_ge,
      value_eq_keyValue]
  · have hinf : ¬ isFinite a = true := by rw [isFinite_iff]; omega
    have hpos : ¬ (infMag : Int) ≤ -infMag := by decide
    rw [extendedValue, if_neg hinf, orderKey, heq]
    cases a.msb <;> simp [signed, keyPlace, hpos]

theorem flt_eq_true {a b : Word} :
    flt a b = true ↔ isNaN a = false ∧ isNaN b = false ∧ orderKey a < orderKey b := by
  simp [flt, and_assoc]

theorem fge_eq_true {a b : Word} :
    fge a b = true ↔ isNaN a = false ∧ isNaN b = false ∧ orderKey b ≤ orderKey a := by
  simp [fge, and_assoc]

/-- Settles O37: on patterns that are no NaN the value is strictly monotone in the order key. -/
theorem comparisonsFollowValues : Obligations.ComparisonsFollowValues := by
  refine ⟨fun a b => flt_eq_true.trans (and_congr_right fun ha => and_congr_right fun hb => ?_),
    fun a b => fge_eq_true.trans (and_congr_right fun ha => and_congr_right fun hb => ?_)⟩
  · rw [extendedValue_eq_keyPlace ha, extendedValue_eq_keyPlace hb,
      keyPlace_strictMonoOn.lt_iff_lt (orderKey_mem ha) (orderKey_mem hb)]
  · rw [extendedValue_eq_keyPlace ha, extendedValue_eq_keyPlace hb,
      keyPlace_strictMonoOn.le_iff_le (orderKey_mem hb) (orderKey_mem ha)]

/-! ## The sign bit (R172) -/

/-- The constant of `fneg` has bit 63 alone. -/
theorem getLsbD_fneg (a : Word) (k : Nat) :
    (fneg a).getLsbD k = if k = 63 then !a.getLsbD k else a.getLsbD k := by
  rw [fneg, show 0x8000000000000000#64 = BitVec.twoPow 64 63 from rfl, BitVec.getLsbD_xor,
    BitVec.getLsbD_twoPow]
  split_ifs with h
  · simp [h]
  · simp [Ne.symm h]

/-- Settles O38: `fneg` is the exclusive or with bit 63. -/
theorem negationFlipsTheSignBit : Obligations.NegationFlipsTheSignBit :=
  ⟨fun a k _ => getLsbD_fneg a k, rfl, fun _ => ⟨rfl, rfl⟩⟩

/-! ## One iteration of `EXP` (R182) -/

theorem exec_exp (s : State) : exec .exp s = whenSeeded s fun s => .next (expPass Config.zig s) := rfl

/-- The fast accept compares `j` and the table's word as integers (R183). -/
theorem fastAccept_eq_true {k : Byte → Word} {v : Word} :
    fastAccept k v = true ↔ (mantissa v).toNat < (k (layerIndex v)).toNat := by
  rw [fastAccept, decide_eq_true_eq, BitVec.lt_def, zext64, BitVec.toNat_setWidth_of_le (by decide)]

/-- Settles O40: the guard of R234, then the exits of R182 in the rule's order; the threshold test is the
one exit the model words otherwise. -/
theorem expIterationAsWritten : Obligations.ExpIterationAsWritten := by
  refine ⟨rfl, fun s h => (exec_exp s).trans (whenSeeded_eq_notSeeded h _), ?_⟩
  rintro s _ _ _ _ _ h rfl rfl rfl rfl rfl
  rw [exec_exp, whenSeeded_of_seeded h, expPass]
  simp only [fastAccept_eq_true]
  rfl

end Sys2Proof.Machine

/-! PROOFS. Family 43_statecodec.md: the eight bytes of a word as `MemRead` and `MemWrite` see them, and the
four commands of the state image. -/

namespace Sys2Proof.Machine

/-! ## Words as eight bytes (R52) -/

/-- The byte `k` of a word is the digit `k` of its number in base 256. -/
theorem byteOf_eq_ofNat_div (v : Word) (k : Nat) : byteOf v k = BitVec.ofNat 8 (v.toNat / 256 ^ k) := by
  apply BitVec.eq_of_toNat_eq
  rw [byteOf, BitVec.extractLsb'_toNat, BitVec.toNat_ofNat, Nat.shiftRight_eq_div_pow, Nat.pow_mul]

/-- A word is given by its eight bytes. -/
theorem eq_of_byteOf_eq {v w : Word} (h : ∀ k < 8, byteOf v k = byteOf w k) : v = w := by
  apply BitVec.eq_of_getLsbD_eq
  intro i hi
  have bit (u : Word) : (byteOf u (i / 8)).getLsbD (i % 8) = u.getLsbD i := by
    rw [byteOf, BitVec.getLsbD_extractLsb', Nat.div_add_mod, decide_eq_true (Nat.mod_lt i (by decide)),
      Bool.true_and]
  rw [← bit v, ← bit w, h (i / 8) (by omega)]

theorem memRead_lt (m : Memory) (a n : Nat) : memRead m a n < 256 ^ n := by
  induction n generalizing a with
  | zero => exact Nat.one_pos
  | succ n ih =>
    have head : (byteAt m a).toNat < 256 := (byteAt m a).isLt
    have tail := ih (a + 1)
    rw [memRead, pow_succ']
    omega

/-- The digit `k` of what `MemRead` returns is the byte at the address `k` places up. -/
theorem ofNat_memRead_div (m : Memory) (a : Nat) {n k : Nat} (hk : k < n) :
    BitVec.ofNat 8 (memRead m a n / 256 ^ k) = byteAt m (a + k) := by
  induction n generalizing a k with
  | zero => omega
  | succ n ih =>
    have head : (byteAt m a).toNat < 256 := (byteAt m a).isLt
    rw [memRead]
    cases k with
    | zero =>
      apply BitVec.eq_of_toNat_eq
      rw [BitVec.toNat_ofNat, pow_zero, Nat.div_one, Nat.add_mul_mod_self_left, Nat.mod_eq_of_lt head,
        Nat.add_zero]
    | succ k =>
      have shift : ((byteAt m a).toNat + 256 * memRead m (a + 1) n) / 256 = memRead m (a + 1) n := by omega
      rw [pow_succ', ← Nat.div_div_eq_div_mul, shift, ih (a + 1) (by omega), Nat.add_right_comm,
        Nat.add_assoc]

theorem toNat_ofNat_memRead (m : Memory) (a : Nat) :
    (BitVec.ofNat 64 (memRead m a 8)).toNat = memRead m a 8 :=
  (BitVec.toNat_ofNat _ _).trans (Nat.mod_eq_of_lt (memRead_lt m a 8))

/-- The bytes of a word read from `IMG` are the bytes at its eight addresses. -/
theorem byteOf_ofNat_memRead (m : Memory) (a : Nat) {k : Nat} (hk : k < 8) :
    byteOf (BitVec.ofNat 64 (memRead m a 8)) k = byteAt m (a + k) := by
  rw [byteOf_eq_ofNat_div, toNat_ofNat_memRead, ofNat_memRead_div m a hk]

/-- `MemRead` returns a word exactly when each of the eight bytes is the word's. -/
theorem memRead_eq_toNat_iff {m : Memory} {a : Nat} {w : Word} :
    memRead m a 8 = w.toNat ↔ ∀ k < 8, byteAt m (a + k) = byteOf w k := by
  rw [← toNat_ofNat_memRead, BitVec.toNat_inj]
  constructor
  · rintro rfl k hk
    exact (byteOf_ofNat_memRead m a hk).symm
  · intro h
    exact eq_of_byteOf_eq fun k hk => (byteOf_ofNat_memRead m a hk).trans (h k hk)

/-- A word written by `MemWrite`: its bytes at the eight addresses, every other byte as before. -/
theorem byteAt_memWrite_word {m : Memory} (h : m.wf = true) {a : Nat} (ha : a + 8 ≤ 16) (w : Word) (x : Nat) :
    byteAt (memWrite m a 8 w.toNat) x = if a ≤ x ∧ x < a + 8 then byteOf w (x - a) else byteAt m x := by
  rw [byteAt_memWrite h ha, byteOf_eq_ofNat_div]

/-! ## `MARSHAL` (R211) -/

theorem exec_marshal (s : State) : exec .marshal s =
    whenSeeded s fun s => done imageLength { s with IMG := writeImage s.IMG s.S } := rfl

/-- The image in memory (R210): the two writes are next to each other and neither reaches the other's bytes. -/
theorem byteAt_writeImage {m : Memory} (h : m.wf = true) (w : Word) (x : Nat) :
    byteAt (writeImage m w) x =
      if x < 8 then byteOf imageTag x else if x < 16 then byteOf w (x - 8) else byteAt m x := by
  rw [writeImage, byteAt_memWrite_word (memWrite_wf h (by decide) _) (by decide),
    byteAt_memWrite_word h (by decide), Nat.sub_zero]
  obtain hx | hx := lt_or_ge x 8
  · rw [if_neg (by omega), if_pos (by omega), if_pos hx]
  · rw [if_neg (by omega : ¬ (0 ≤ x ∧ x < 0 + 8)), if_neg (by omega : ¬ x < 8)]
    exact if_congr (by omega) rfl rfl

/-- Settles O49: the guard of R234, then the sixteen bytes of the image. -/
theorem marshalWritesTheImage : Obligations.MarshalWritesTheImage :=
  ⟨rfl, fun s h => (exec_marshal s).trans (whenSeeded_eq_notSeeded h _),
    fun s h hwf => ⟨writeImage s.IMG s.S, (exec_marshal s).trans (whenSeeded_done h _ _),
      byteAt_writeImage hwf s.S⟩⟩

/-! ## `UNMARSHAL` (R213, R214) -/

theorem exec_unmarshal (len : Word) (s : State) : exec (.unmarshal len) s = execUnmarshal len s := rfl

theorem exec_unmarshal_of_length_ne {len : Word} (h : len ≠ imageLength) (s : State) :
    exec (.unmarshal len) s = raise .invalidFormat s := by
  rw [exec_unmarshal, execUnmarshal, if_pos h]

/-- With the right length the tag decides alone. -/
theorem exec_unmarshal_imageLength (s : State) : exec (.unmarshal imageLength) s =
    if memRead s.IMG 0 8 ≠ imageTag.toNat then raise .invalidFormat s
    else done 0#64 (s.load (BitVec.ofNat 64 (memRead s.IMG 8 8))) := by
  rw [exec_unmarshal, execUnmarshal, if_neg fun h => h rfl]

/-- The tag check of R213 byte by byte. -/
theorem memRead_eq_imageTag_iff {m : Memory} :
    memRead m 0 8 = imageTag.toNat ↔ ∀ k < 8, byteAt m k = byteOf imageTag k := by
  simpa only [Nat.zero_add] using memRead_eq_toNat_iff (m := m) (a := 0) (w := imageTag)

theorem exec_unmarshal_of_bad_tag {s : State} (h : ∃ k < 8, byteAt s.IMG k ≠ byteOf imageTag k) :
    exec (.unmarshal imageLength) s = raise .invalidFormat s := by
  obtain ⟨k, hk, hne⟩ := h
  rw [exec_unmarshal_imageLength, if_pos fun htag => hne (memRead_eq_imageTag_iff.1 htag k hk)]

theorem exec_unmarshal_of_good_tag {s : State} (h : ∀ k < 8, byteAt s.IMG k = byteOf imageTag k) :
    exec (.unmarshal imageLength) s = done 0#64 (s.load (BitVec.ofNat 64 (memRead s.IMG 8 8))) := by
  rw [exec_unmarshal_imageLength, if_neg (not_not.2 (memRead_eq_imageTag_iff.2 h))]

/-- Settles O50: the two refusals, and the word loaded, which has the bytes 8 to 15 of the image. -/
theorem unmarshalValidatesBeforeLoading : Obligations.UnmarshalValidatesBeforeLoading :=
  ⟨fun _ => rfl, fun _ s h => exec_unmarshal_of_length_ne h s, fun _ h => exec_unmarshal_of_bad_tag h,
    fun s h => ⟨_, exec_unmarshal_of_good_tag h, fun _ hk => byteOf_ofNat_memRead s.IMG 8 hk⟩⟩

/-! ## `IMGRD` and `IMGWR` (R216, R217) -/

theorem memRead_one (m : Memory) (a : Nat) : memRead m a 1 = (byteAt m a).toNat := rfl

theorem memWrite_one (m : Memory) (a : Nat) (b : Byte) : memWrite m a 1 b.toNat = setByte m a b := by
  rw [memWrite, memWrite, BitVec.ofNat_toNat, BitVec.setWidth_eq]

theorem exec_imgrd (a : BitVec 4) (s : State) :
    exec (.imgrd a) s = done ((byteAt s.IMG a.toNat).setWidth 64) s := by
  rw [← BitVec.ofNat_toNat, ← memRead_one]
  rfl

theorem exec_imgwr (a : BitVec 4) (b : Byte) (s : State) :
    exec (.imgwr a b) s = done 0#64 { s with IMG := setByte s.IMG a.toNat b } := by
  rw [← memWrite_one]
  rfl

/-- Settles O51: a `MemRead` of one byte is the byte. -/
theorem imgrdReturnsTheByte : Obligations.ImgrdReturnsTheByte :=
  ⟨fun _ => rfl, exec_imgrd⟩

/-- Settles O52: a `MemWrite` of one byte sets it in the canonical list. -/
theorem imgwrSetsOneByte : Obligations.ImgwrSetsOneByte :=
  ⟨fun _ _ => rfl, fun a b s hwf =>
    ⟨setByte s.IMG a.toNat b, exec_imgwr a b s, byteAt_setByte hwf a.toNat b⟩⟩

end Sys2Proof.Machine

/-! PROOFS. Family 60_exceptions.md: which command raises which status, how one pass of the sequencer can
come out, and the three claims about error statuses read off these. -/

namespace Sys2Proof.Machine

/-! ## The conditions and the commands that raise them (R231) -/

/-- The command raises the error, under some condition of R231. The count of `RDBYTES` is the one operand
that makes a command ill-formed. -/
def MayRaise (i : Instr) : Status → Prop
  | .ok | .invalidSeed => False
  | .invalidArgument => boundedClass i = true
  | .invalidFormat => ∃ len, i = .unmarshal len
  | .notSeeded => drawingClass i = true ∨ i = .marshal
  | .illegalCommand => i.wellFormed = false

theorem drawingClass_of_boundedClass {i : Instr} (h : boundedClass i = true) : drawingClass i = true := by
  cases i with
  | bound32 | bound64 | int31n | int63n => rfl
  | seed | next64 | next32 | unif | rdbytes | exp | norm | marshal | unmarshal | imgrd | imgwr => cases h

theorem Status.code_injective : Function.Injective Status.code := fun _ _ h =>
  (mkResponse_inj (congrArg (· ++ 0#64) h)).1

/-- Every status but `InvalidSeed` has a number that is neither 3 nor reserved (R86). -/
theorem Status.code_of_ne_invalidSeed {st : Status} (h : st ≠ .invalidSeed) :
    st.code ≠ 3#4 ∧ st.code.toNat < 6 := by
  cases st with
  | invalidSeed => exact absurd rfl h
  | ok | invalidArgument | invalidFormat | notSeeded | illegalCommand => decide

/-! ## How one pass can come out (R236, R268, R270) -/

/-- How a pass of command `i` from `s` to `t` comes out: the command ends with `OK`, or ends with an error
it may raise and changes nothing else, or, in the drawing class, goes on. -/
inductive PassOutcome (i : Instr) (s t : State) : Prop where
  | returned (u : State) (v : Word) (h : t = u.finish .ok v)
  | raised (st : Status) (hst : MayRaise i st) (h : t = s.finish st 0#64)
  | goesOn (hi : drawingClass i = true) (h : t.BUSY = s.BUSY)

namespace PassOutcome

variable {i : Instr} {s t : State}

theorem of_done {v : Word} {u : State} (h : done v u = .next t) : PassOutcome i s t := by
  cases h
  exact .returned u v rfl

theorem of_raise {st : Status} (hst : MayRaise i st) (h : raise st s = .next t) : PassOutcome i s t := by
  cases h
  exact .raised st hst rfl

theorem of_whenSeeded {body : State → Result} (hi : MayRaise i .notSeeded)
    (h : whenSeeded s body = .next t) (hbody : body s = .next t → PassOutcome i s t) :
    PassOutcome i s t := by
  cases hs : s.SEEDED with
  | false => exact of_raise hi ((whenSeeded_of_unseeded hs body).symm.trans h)
  | true => exact hbody ((whenSeeded_of_seeded hs body).symm.trans h)

theorem of_lemire32 {n : Half} (hi : drawingClass i = true) (h : lemire32 n s = .next t) :
    PassOutcome i s t := by
  obtain ⟨_, hok⟩ | ⟨_, r, _, hok⟩ | ⟨_, thr, _, hredraw⟩ := lemire32_cases n s
  · exact of_done (hok.symm.trans h)
  · exact of_done (hok.symm.trans h)
  · cases hredraw.symm.trans h
    exact .goesOn hi rfl

theorem of_lemire64 {n : Word} (hi : drawingClass i = true) (h : lemire64 n s = .next t) :
    PassOutcome i s t := by
  obtain ⟨_, hok⟩ | ⟨_, r, _, hok⟩ | ⟨_, thr, _, hredraw⟩ := lemire64_cases n s
  · exact of_done (hok.symm.trans h)
  · exact of_done (hok.symm.trans h)
  · cases hredraw.symm.trans h
    exact .goesOn hi rfl

theorem of_guardedDraw {bad : Bool} {draw : State → Result} (hi : boundedClass i = true)
    (hdraw : drawingClass i = true → draw s = .next t → PassOutcome i s t)
    (h : guardedDraw bad draw s = .next t) : PassOutcome i s t := by
  have hclass := drawingClass_of_boundedClass hi
  refine of_whenSeeded (.inl hclass) h fun hbody => ?_
  cases bad with
  | true => exact of_raise (st := .invalidArgument) hi hbody
  | false => exact hdraw hclass hbody

theorem of_expPass {P : ZigParams} (hi : drawingClass i = true) : PassOutcome i s (expPass P s) := by
  obtain ⟨x, h⟩ | ⟨x, h⟩ | h := expPass_cases P s
  · exact .returned _ x h
  · exact .returned _ x h
  · exact .goesOn hi (by rw [h]; rfl)

theorem of_normPass {P : ZigParams} (hi : drawingClass i = true) : PassOutcome i s (normPass P s) := by
  obtain ⟨x, h⟩ | ⟨sign, h⟩ | ⟨x, h⟩ | h | ⟨sign, _, h⟩ := normPass_cases P s
  · exact .returned _ x h
  · exact .goesOn hi (by rw [h]; rfl)
  · exact .returned _ x h
  · exact .goesOn hi (by rw [h]; rfl)
  · exact .goesOn hi (by rw [h]; rfl)

end PassOutcome

theorem exec_norm (s : State) : exec .norm s = whenSeeded s fun s => .next (normPass Config.zig s) := rfl

/-- Every pass of every command has one of the three outcomes. -/
theorem passOutcome_of_exec {i : Instr} {s t : State} (h : exec i s = .next t) : PassOutcome i s t := by
  cases i with
  | seed | imgrd | imgwr => exact .of_done h
  | next64 => exact .of_whenSeeded (.inl rfl) ((exec_next64 s).symm.trans h) .of_done
  | next32 => exact .of_whenSeeded (.inl rfl) ((exec_next32 s).symm.trans h) .of_done
  | unif => exact .of_whenSeeded (.inl rfl) ((exec_unif s).symm.trans h) .of_done
  | rdbytes c =>
    rw [exec, execRdbytes] at h
    split at h
    case isTrue hc => exact .of_raise (st := .illegalCommand) (decide_eq_false (by omega)) h
    case isFalse => exact .of_whenSeeded (.inl rfl) h .of_done
  | bound32 | int31n => exact .of_guardedDraw rfl .of_lemire32 h
  | bound64 | int63n => exact .of_guardedDraw rfl .of_lemire64 h
  | exp =>
    refine .of_whenSeeded (.inl rfl) ((exec_exp s).symm.trans h) fun hpass => ?_
    cases hpass
    exact .of_expPass rfl
  | norm =>
    refine .of_whenSeeded (.inl rfl) ((exec_norm s).symm.trans h) fun hpass => ?_
    cases hpass
    exact .of_normPass rfl
  | marshal => exact .of_whenSeeded (.inr rfl) ((exec_marshal s).symm.trans h) .of_done
  | unmarshal len =>
    rw [exec_unmarshal, execUnmarshal] at h
    split_ifs at h
    · exact .of_raise (st := .invalidFormat) ⟨len, rfl⟩ h
    · exact .of_raise (st := .invalidFormat) ⟨len, rfl⟩ h
    · exact .of_done h

/-- A pass leaves `OK` or the number of an error its command may raise, or the command goes on. -/
theorem PassOutcome.statusField_or_goesOn {i : Instr} {s t : State} (h : PassOutcome i s t) :
    (∃ st, (st = .ok ∨ MayRaise i st) ∧ statusField t.RSP = st.code) ∨
      (drawingClass i = true ∧ t.BUSY = s.BUSY) := by
  cases h with
  | returned u v h => exact .inl ⟨.ok, .inl rfl, h ▸ statusField_mkResponse .ok v⟩
  | raised st hst h => exact .inl ⟨st, .inr hst, h ▸ statusField_mkResponse st 0#64⟩
  | goesOn hi h => exact .inr ⟨hi, h⟩

/-- A command that ends gives `OK` or the number of an error it may raise. -/
theorem statusField_of_ended {i : Instr} {s t : State} (hbusy : s.BUSY = true) (h : exec i s = .next t)
    (hend : t.BUSY = false) : ∃ st, (st = .ok ∨ MayRaise i st) ∧ statusField t.RSP = st.code :=
  (passOutcome_of_exec h).statusField_or_goesOn.resolve_right fun ⟨_, hgo⟩ =>
    absurd (hbusy.symm.trans (hgo.symm.trans hend)) (by decide)

/-! ## `NotSeeded` (R234) -/

/-- The commands of R234 ask for `SEEDED` before anything else, an operand included. -/
theorem exec_eq_whenSeeded {i : Instr} (hwf : i.wellFormed = true)
    (hi : drawingClass i = true ∨ i = .marshal) : ∃ body, ∀ s, exec i s = whenSeeded s body := by
  cases i with
  | next64 | next32 | unif | bound32 | bound64 | int31n | int63n | exp | norm | marshal =>
    exact ⟨_, fun _ => rfl⟩
  | rdbytes c => exact ⟨_, exec_rdbytes (of_decide_eq_true hwf)⟩
  | seed | unmarshal | imgrd | imgwr => simp [drawingClass] at hi

/-- Settles O10: the guard comes first, and the four other commands have no such error to raise. -/
theorem unseededBlockRefusesToDraw : Obligations.UnseededBlockRefusesToDraw := by
  refine ⟨fun i s hwf hi hs => ?_, fun i s t _ hclass hmarshal h hstatus => ?_⟩
  · obtain ⟨body, hbody⟩ := exec_eq_whenSeeded hwf hi
    exact (hbody s).trans (whenSeeded_eq_notSeeded hs body)
  · have hdraws : drawingClass i ≠ true := fun hi => absurd (hi.symm.trans hclass) (by decide)
    obtain ⟨st, hst, hcode⟩ :=
      (passOutcome_of_exec h).statusField_or_goesOn.resolve_right fun ⟨hi, _⟩ => hdraws hi
    obtain rfl := Status.code_injective (a₂ := .notSeeded) (hcode.symm.trans hstatus)
    exact hst.elim (by decide) fun hi => hi.elim hdraws hmarshal

/-! ## `InvalidArgument` (R232) -/

/-- A draw moves the generator state: the state update of R111 adds a constant other than 0. -/
theorem advance_ne_self (s : Word) : advance s ≠ s := by
  simp [advance, gamma]

theorem finish_ok_ne_invalidArgument (u s : State) (v : Word) :
    u.finish .ok v ≠ s.answered 1#4 0#64 := fun h =>
  absurd (mkResponse_inj (st' := .invalidArgument) (congrArg State.RSP h)).1 (by decide)

/-- A rejected word is told from an error by its draw. -/
theorem redraw_ne_answered (s : State) (p : Position) (status : BitVec 4) (data : Word) :
    { s.afterDraw with pos := p } ≠ s.answered status data := fun h =>
  advance_ne_self s.S (congrArg State.S h)

theorem lemire32_ne_invalidArgument (n : Half) (s : State) :
    lemire32 n s ≠ .next (s.answered 1#4 0#64) := by
  obtain ⟨_, h⟩ | ⟨_, r, _, h⟩ | ⟨_, thr, _, h⟩ := lemire32_cases n s <;>
    rw [h, Ne, Host.Outcome.next.injEq]
  · exact finish_ok_ne_invalidArgument _ _ _
  · exact finish_ok_ne_invalidArgument _ _ _
  · exact redraw_ne_answered _ _ _ _

theorem lemire64_ne_invalidArgument (n : Word) (s : State) :
    lemire64 n s ≠ .next (s.answered 1#4 0#64) := by
  obtain ⟨_, h⟩ | ⟨_, r, _, h⟩ | ⟨_, thr, _, h⟩ := lemire64_cases n s <;>
    rw [h, Ne, Host.Outcome.next.injEq]
  · exact finish_ok_ne_invalidArgument _ _ _
  · exact finish_ok_ne_invalidArgument _ _ _
  · exact redraw_ne_answered _ _ _ _

/-- On a seeded block the bound check alone decides `InvalidArgument`. -/
theorem guardedDraw_eq_invalidArgument_iff {s : State} (hs : s.SEEDED = true) {bad : Bool}
    {draw : State → Result} (hdraw : draw s ≠ .next (s.answered 1#4 0#64)) :
    guardedDraw bad draw s = .next (s.answered 1#4 0#64) ↔ bad = true := by
  cases bad with
  | true => exact iff_of_true (guardedDraw_of_bad hs rfl draw) rfl
  | false => exact iff_of_false (by rwa [guardedDraw_of_good hs rfl]) Bool.false_ne_true

theorem badUnsignedBound_iff {w : Nat} {n : BitVec w} : badUnsignedBound n = true ↔ n = 0#w :=
  beq_iff_eq

/-- The signed bounds refused, by their bits: 0, or the top bit set. -/
theorem badSignedBound_iff {w : Nat} {n : BitVec w} :
    badSignedBound n = true ↔ n = 0#w ∨ n.getLsbD (w - 1) = true := by
  rw [badSignedBound, Bool.or_eq_true, beq_iff_eq, BitVec.msb_eq_getLsbD_last, or_comm]

/-- Settles O11: the bound check of each of the four commands, and that no other command has this error to
raise. -/
theorem invalidArgumentExactlyAtBadBounds : Obligations.InvalidArgumentExactlyAtBadBounds := by
  refine ⟨fun s hs => ⟨fun n => ?_, fun n => ?_, fun n => ?_, fun n => ?_⟩,
    fun i s t hclass hbusy h hend hstatus => ?_⟩
  · exact (guardedDraw_eq_invalidArgument_iff hs (lemire32_ne_invalidArgument n s)).trans
      badUnsignedBound_iff
  · exact (guardedDraw_eq_invalidArgument_iff hs (lemire64_ne_invalidArgument n s)).trans
      badUnsignedBound_iff
  · exact (guardedDraw_eq_invalidArgument_iff hs (lemire32_ne_invalidArgument n s)).trans
      badSignedBound_iff
  · exact (guardedDraw_eq_invalidArgument_iff hs (lemire64_ne_invalidArgument n s)).trans
      badSignedBound_iff
  · obtain ⟨st, hst, hcode⟩ := statusField_of_ended hbusy h hend
    obtain rfl := Status.code_injective (a₂ := .invalidArgument) (hcode.symm.trans hstatus)
    exact hst.elim (by decide) fun hi => absurd (hi.symm.trans hclass) (by decide)

/-! ## `InvalidSeed` (R235) and the reserved statuses (R86) -/

/-- Settles O13: an illegal word raises `IllegalCommand`, and no command has `InvalidSeed` to raise. -/
theorem invalidSeedNeverRaised : Obligations.InvalidSeedNeverRaised := by
  intro s t hbusy h hend
  rw [sequencerStep] at h
  split at h
  next i _ =>
    obtain ⟨st, hst, hcode⟩ := statusField_of_ended hbusy h hend
    rw [hcode]
    refine Status.code_of_ne_invalidSeed ?_
    rintro rfl
    exact hst.elim (by decide) id
  next =>
    cases h
    rw [State.finish_RSP, statusField_mkResponse]
    decide

end Sys2Proof.Machine

/-! PROOFS. Family 70_reset_and_hazards.md: what a pass of the sequencer leaves at the port, the step of a
held command, and the step of an applied reset. -/

namespace Sys2Proof.Machine

/-! ## A pass leaves the offers and the latch (R267) -/

/-- The answer is a next state with the offers and the latched word of `s`. -/
def KeepsPort (s : State) (r : Result) : Prop :=
  ∃ t, r = .next t ∧ t.events = s.events ∧ t.latch = s.latch

namespace KeepsPort

variable {s : State}

theorem of_done {u : State} (v : Word) (hevents : u.events = s.events) (hlatch : u.latch = s.latch) :
    KeepsPort s (done v u) := ⟨_, rfl, hevents, hlatch⟩

theorem of_raise (st : Status) : KeepsPort s (raise st s) := ⟨_, rfl, rfl, rfl⟩

theorem of_whenSeeded {body : State → Result} (hbody : KeepsPort s (body s)) :
    KeepsPort s (whenSeeded s body) := by
  cases hs : s.SEEDED with
  | false => rw [whenSeeded_of_unseeded hs]; exact of_raise .notSeeded
  | true => rwa [whenSeeded_of_seeded hs]

theorem of_lemire32 (n : Half) : KeepsPort s (lemire32 n s) := by
  obtain ⟨_, h⟩ | ⟨_, _, _, h⟩ | ⟨_, _, _, h⟩ := lemire32_cases n s <;> exact ⟨_, h, rfl, rfl⟩

theorem of_lemire64 (n : Word) : KeepsPort s (lemire64 n s) := by
  obtain ⟨_, h⟩ | ⟨_, _, _, h⟩ | ⟨_, _, _, h⟩ := lemire64_cases n s <;> exact ⟨_, h, rfl, rfl⟩

theorem of_guardedDraw {draw : State → Result} (bad : Bool) (hdraw : KeepsPort s (draw s)) :
    KeepsPort s (guardedDraw bad draw s) := by
  refine of_whenSeeded ?_
  cases bad with
  | true => exact of_raise .invalidArgument
  | false => exact hdraw

theorem of_afterBytes (c : Nat) (v : Word) : KeepsPort s (done v (s.afterBytes c)) := by
  rw [State.afterBytes_frame]
  exact of_done v rfl rfl

theorem of_expPass (P : ZigParams) : KeepsPort s (.next (expPass P s)) := by
  obtain ⟨_, h⟩ | ⟨_, h⟩ | h := expPass_cases P s <;> rw [h] <;> exact ⟨_, rfl, rfl, rfl⟩

theorem of_normPass (P : ZigParams) : KeepsPort s (.next (normPass P s)) := by
  obtain ⟨_, h⟩ | ⟨_, h⟩ | ⟨_, h⟩ | h | ⟨_, _, h⟩ := normPass_cases P s <;> rw [h] <;>
    exact ⟨_, rfl, rfl, rfl⟩

end KeepsPort

theorem exec_keepsPort (i : Instr) (s : State) : KeepsPort s (exec i s) := by
  cases i with
  | seed | imgrd | imgwr => exact .of_done _ rfl rfl
  | next64 => rw [exec_next64]; exact .of_whenSeeded (.of_done _ rfl rfl)
  | next32 => rw [exec_next32]; exact .of_whenSeeded (.of_done _ rfl rfl)
  | unif => rw [exec_unif]; exact .of_whenSeeded (.of_done _ rfl rfl)
  | marshal => rw [exec_marshal]; exact .of_whenSeeded (.of_done _ rfl rfl)
  | rdbytes c =>
    rw [exec, execRdbytes]
    split_ifs
    · exact .of_raise .illegalCommand
    · exact .of_whenSeeded (.of_afterBytes _ _)
  | bound32 n | int31n n => exact .of_guardedDraw _ (.of_lemire32 n)
  | bound64 n | int63n n => exact .of_guardedDraw _ (.of_lemire64 n)
  | exp => rw [exec_exp]; exact .of_whenSeeded (.of_expPass _)
  | norm => rw [exec_norm]; exact .of_whenSeeded (.of_normPass _)
  | unmarshal len =>
    rw [exec_unmarshal, execUnmarshal]
    split_ifs
    · exact .of_raise .invalidFormat
    · exact .of_raise .invalidFormat
    · exact .of_done _ (State.load_events _ _) (State.load_latch _ _)

/-- A pass keeps the port, that of an illegal word included (R88). -/
theorem sequencerStep_keepsPort (s : State) : KeepsPort s (sequencerStep s) := by
  cases hdec : decode s.latch with
  | command i => rw [sequencerStep, hdec]; exact exec_keepsPort i s
  | illegal why => rw [sequencerStep_of_illegal hdec]; exact .of_raise .illegalCommand

/-- A command offered while another runs waits: the step is the running command's pass (R267). -/
theorem step_of_held {s : State} {w : Command} {rest : List Event} (hbusy : s.BUSY = true)
    (hev : s.events = .command w :: rest) : step s = sequencerStep s := by
  simp [step, portStep, hev, hbusy]

/-- Settles O6: idle, the port accepts; busy, the pass of the running command leaves offers and latch. -/
theorem portAcceptsOnlyWhenIdle : Obligations.PortAcceptsOnlyWhenIdle := by
  refine ⟨fun _ _ _ => step_of_offered, fun s w rest hbusy hev => ?_⟩
  rw [step_of_held hbusy hev]
  exact sequencerStep_keepsPort s

/-! ## Reset (R260) -/

/-- An applied reset comes before anything else of the step, whatever the block is doing. -/
theorem step_of_reset {s : State} {rest : List Event} (hev : s.events = .reset :: rest) :
    step s = .next (afterReset rest) := by
  simp [step, portStep, hev]

/-- Settles O7: the step goes to the reset state, which has kept nothing of the running command. -/
theorem resetComesInAnyState : Obligations.ResetComesInAnyState := fun _ rest hev =>
  ⟨afterReset rest, step_of_reset hev, rfl, rfl, rfl, rfl, byteAt_reset, rfl⟩

end Sys2Proof.Machine

/-! PROOFS. Family other, the sequencer's passes: what a sampler sees of the block, what a pass of any command
can write, and the claims about every step read off these. -/

namespace Sys2Proof.Machine

/-! ## The samplers: the drawing commands but `RDBYTES` -/

/-- The block `s'` with all that a sampler sees of the block `s`: its engine and its position. -/
def State.withEngine (s s' : State) : State := { s' with S := s.S, SEEDED := s.SEEDED, pos := s.pos }

/-- How a pass of a sampler comes out: it leaves the word `x` in `S` and ends, or goes on at a position. -/
inductive SamplerAnswer where
  | ends (x : Word) (st : Status) (v : Word)
  | goesOn (x : Word) (p : Position)

/-- The answer written into a block. -/
def SamplerAnswer.apply : SamplerAnswer → State → State
  | .ends x st v, s => { s with S := x }.finish st v
  | .goesOn x p, s => { s with S := x, pos := p }

/-- The position is one that command `i` can stand at (10_state.md R30). -/
def Position.Fits (i : Instr) : Position → Prop
  | .start => True
  | .redraw32 thr => ∃ n : Half, 1 < n.toNat ∧ thr = threshold n ∧ (i = .bound32 n ∨ i = .int31n n)
  | .redraw64 thr => ∃ n : Word, 1 < n.toNat ∧ thr = threshold n ∧ (i = .bound64 n ∨ i = .int63n n)
  | .tail _ => i = .norm

/-- The answer has a legal status, or goes on in a seeded block from a fitting position to a fitting one. -/
def SamplerAnswer.Legal (i : Instr) (s : State) : SamplerAnswer → Prop
  | .ends _ st _ => st ≠ .invalidSeed
  | .goesOn _ p => s.SEEDED = true ∧ (s.pos.Fits i → p.Fits i)

theorem SamplerAnswer.Legal.ends_ok (i : Instr) (s : State) (x v : Word) :
    (SamplerAnswer.ends x .ok v).Legal i s := Status.noConfusion

theorem judgeRedraw_eq_reject {w : Nat} {thr thr' : BitVec w} {p : Halves w}
    (h : judgeRedraw thr p = .reject thr') : thr' = thr := by
  rw [judgeRedraw] at h
  split at h
  · exact (Verdict.reject.inj h).symm
  · cases h

/-- The redraw loop keeps the threshold it has, and is entered with the one of the command's bound. -/
theorem State.redraw32_fits {i : Instr} {s : State} {n : Half} (hn : 1 < n.toNat)
    (hi : i = .bound32 n ∨ i = .int31n n) (h : s.pos.Fits i) :
    (Position.redraw32 (s.threshold32 n)).Fits i := by
  have enters : (Position.redraw32 (threshold n)).Fits i := ⟨n, hn, rfl, hi⟩
  cases hpos : s.pos with
  | redraw32 thr => rw [State.threshold32, hpos]; rwa [hpos] at h
  | start | redraw64 | tail => rw [State.threshold32, hpos]; exact enters

/-- The redraw loop keeps the threshold it has, and is entered with the one of the command's bound. -/
theorem State.redraw64_fits {i : Instr} {s : State} {n : Word} (hn : 1 < n.toNat)
    (hi : i = .bound64 n ∨ i = .int63n n) (h : s.pos.Fits i) :
    (Position.redraw64 (s.threshold64 n)).Fits i := by
  have enters : (Position.redraw64 (threshold n)).Fits i := ⟨n, hn, rfl, hi⟩
  cases hpos : s.pos with
  | redraw64 thr => rw [State.threshold64, hpos]; rwa [hpos] at h
  | start | redraw32 | tail => rw [State.threshold64, hpos]; exact enters

/-- In every block with the engine of `s` the pass `body` comes out with the same legal answer. -/
def Samples (i : Instr) (s : State) (body : State → Result) : Prop :=
  ∃ a : SamplerAnswer, a.Legal i s ∧ ∀ s', body (s.withEngine s') = .next (a.apply (s.withEngine s'))

namespace Samples

variable {i : Instr} {s : State}

theorem of_raise {st : Status} (hst : st ≠ .invalidSeed) : Samples i s (raise st) :=
  ⟨.ends s.S st 0#64, hst, fun _ => rfl⟩

/-- The commands of one draw. -/
theorem of_drawn (data : State → Word) (h : ∀ s', data (s.withEngine s') = data s) :
    Samples i s fun s => done (data s) s.afterDraw :=
  ⟨.ends (advance s.S) .ok (data s), .ends_ok i s _ _, fun s' => by dsimp only; rw [h]; rfl⟩

theorem of_whenSeeded {body : State → Result} (hbody : s.SEEDED = true → Samples i s body) :
    Samples i s fun s => whenSeeded s body := by
  cases hs : s.SEEDED with
  | false =>
    obtain ⟨a, ha, happly⟩ := of_raise (i := i) (s := s) (st := .notSeeded) (by decide)
    exact ⟨a, ha, fun s' => (whenSeeded_of_unseeded (s := s.withEngine s') hs body).trans (happly s')⟩
  | true =>
    obtain ⟨a, ha, happly⟩ := hbody hs
    exact ⟨a, ha, fun s' => (whenSeeded_of_seeded (s := s.withEngine s') hs body).trans (happly s')⟩

theorem of_lemire32 {n : Half} (hs : s.SEEDED = true) (hn : n ≠ 0#32) (hi : i = .bound32 n ∨ i = .int31n n) :
    Samples i s (lemire32 n) := by
  have sees (s') : verdict32 n (s.withEngine s') = verdict32 n s := rfl
  by_cases hone : n = 1#32
  · exact ⟨.ends s.S .ok 0#64, .ends_ok i s _ _, fun _ => if_pos hone⟩
  cases hv : verdict32 n s with
  | accept r =>
    refine ⟨.ends (advance s.S) .ok (zext64 r), .ends_ok i s _ _, fun s' => ?_⟩
    rw [lemire32, if_neg hone, sees, hv]
    rfl
  | reject thr =>
    obtain rfl := judgeRedraw_eq_reject ((verdict32_eq hn s).symm.trans hv)
    refine ⟨.goesOn (advance s.S) (.redraw32 (s.threshold32 n)), ⟨hs, State.redraw32_fits (by bv_omega) hi⟩,
      fun s' => ?_⟩
    rw [lemire32, if_neg hone, sees, hv]
    rfl

theorem of_lemire64 {n : Word} (hs : s.SEEDED = true) (hn : n ≠ 0#64) (hi : i = .bound64 n ∨ i = .int63n n) :
    Samples i s (lemire64 n) := by
  have sees (s') : verdict64 n (s.withEngine s') = verdict64 n s := rfl
  by_cases hone : n = 1#64
  · exact ⟨.ends s.S .ok 0#64, .ends_ok i s _ _, fun _ => if_pos hone⟩
  cases hv : verdict64 n s with
  | accept r =>
    refine ⟨.ends (advance s.S) .ok r, .ends_ok i s _ _, fun s' => ?_⟩
    rw [lemire64, if_neg hone, sees, hv]
    rfl
  | reject thr =>
    obtain rfl := judgeRedraw_eq_reject ((verdict64_eq hn s).symm.trans hv)
    refine ⟨.goesOn (advance s.S) (.redraw64 (s.threshold64 n)), ⟨hs, State.redraw64_fits (by bv_omega) hi⟩,
      fun s' => ?_⟩
    rw [lemire64, if_neg hone, sees, hv]
    rfl

theorem of_guardedDraw {bad : Bool} {draw : State → Result}
    (hdraw : s.SEEDED = true → bad = false → Samples i s draw) : Samples i s (guardedDraw bad draw) := by
  refine of_whenSeeded fun hs => ?_
  cases bad with
  | true => exact of_raise (by decide)
  | false => exact hdraw hs rfl

theorem of_expPass (P : ZigParams) (hs : s.SEEDED = true) :
    Samples i s fun s => .next (expPass P s) := by
  by_cases hfast : fastAccept P.rom.ke s.drawn = true
  · exact ⟨.ends (advance s.S) .ok (candidate P.rom.we s.drawn), .ends_ok i s _ _, fun _ =>
      congrArg _ (if_pos hfast)⟩
  by_cases hzero : layerIndex s.drawn = 0#8
  · exact ⟨.ends (advance (advance s.S)) .ok (fsub baseStripExp (P.ln64 (uOpen s.afterDraw.drawn))),
      .ends_ok i s _ _, fun _ => congrArg _ ((if_neg hfast).trans (if_pos hzero))⟩
  by_cases hslow : expSlowAccept P (layerIndex s.drawn) (candidate P.rom.we s.drawn)
      (uOpen s.afterDraw.drawn) = true
  · exact ⟨.ends (advance (advance s.S)) .ok (candidate P.rom.we s.drawn), .ends_ok i s _ _, fun _ =>
      congrArg _ ((if_neg hfast).trans ((if_neg hzero).trans (if_pos hslow)))⟩
  · exact ⟨.goesOn (advance (advance s.S)) .start, ⟨hs, fun _ => trivial⟩, fun _ =>
      congrArg _ ((if_neg hfast).trans ((if_neg hzero).trans (if_neg hslow)))⟩

theorem of_normIteration (P : ZigParams) (hs : s.SEEDED = true) (hi : i = .norm) :
    Samples i s fun s => .next (normIteration P s) := by
  by_cases hfast : fastAccept P.rom.kn s.drawn = true
  · exact ⟨.ends (advance s.S) .ok (sgn (signBit s.drawn) (candidate P.rom.wn s.drawn)), .ends_ok i s _ _,
      fun _ => congrArg _ (if_pos hfast)⟩
  by_cases hzero : layerIndex s.drawn = 0#8
  · exact ⟨.goesOn (advance s.S) (.tail (signBit s.drawn)), ⟨hs, fun _ => hi⟩, fun _ =>
      congrArg _ ((if_neg hfast).trans (if_pos hzero))⟩
  by_cases hslow : normSlowAccept P (layerIndex s.drawn) (candidate P.rom.wn s.drawn)
      (uOpen s.afterDraw.drawn) = true
  · exact ⟨.ends (advance (advance s.S)) .ok (sgn (signBit s.drawn) (candidate P.rom.wn s.drawn)),
      .ends_ok i s _ _, fun _ =>
      congrArg _ ((if_neg hfast).trans ((if_neg hzero).trans (if_pos hslow)))⟩
  · exact ⟨.goesOn (advance (advance s.S)) .start, ⟨hs, fun _ => trivial⟩, fun _ =>
      congrArg _ ((if_neg hfast).trans ((if_neg hzero).trans (if_neg hslow)))⟩

theorem of_normTailPass (P : ZigParams) (sign : Bool) (hs : s.SEEDED = true) :
    Samples i s fun s => .next (normTailPass P sign s) := by
  by_cases hge : fge (fadd (tailY P (uOpen s.afterDraw.drawn)) (tailY P (uOpen s.afterDraw.drawn)))
      (fmul (tailX P (uOpen s.drawn)) (tailX P (uOpen s.drawn))) = true
  · exact ⟨.ends (advance (advance s.S)) .ok (sgn sign (fadd P.rom.rn (tailX P (uOpen s.drawn)))),
      .ends_ok i s _ _, fun _ => congrArg _ (if_pos hge)⟩
  · exact ⟨.goesOn (advance (advance s.S)) s.pos, ⟨hs, id⟩, fun _ => congrArg _ (if_neg hge)⟩

theorem of_normPass (P : ZigParams) (hs : s.SEEDED = true) (hi : i = .norm) :
    Samples i s fun s => .next (normPass P s) := by
  have at_pos (s') : (s.withEngine s').pos = s.pos := rfl
  cases hpos : s.pos with
  | tail sign => simpa only [Samples, normPass, at_pos, hpos] using of_normTailPass P sign hs
  | start | redraw32 | redraw64 =>
    simpa only [Samples, normPass, at_pos, hpos] using of_normIteration P hs hi

end Samples

/-- The samplers see the engine and the position alone (40_bitengine.md section 2). -/
theorem exec_samples {i : Instr} (hi : drawingClass i = true) (hbytes : ∀ c, i ≠ .rdbytes c) (s : State) :
    Samples i s (exec i) := by
  cases i with
  | next64 => exact .of_whenSeeded fun _ => .of_drawn State.drawn fun _ => rfl
  | next32 => exact .of_whenSeeded fun _ => .of_drawn (zext64 ·.drawn32) fun _ => rfl
  | unif => exact .of_whenSeeded fun _ => .of_drawn (uHalf ·.drawn) fun _ => rfl
  | rdbytes c => exact absurd rfl (hbytes c)
  | bound32 n =>
    exact .of_guardedDraw fun hs hn => .of_lemire32 hs (badUnsignedBound_eq_false.1 hn) (.inl rfl)
  | bound64 n =>
    exact .of_guardedDraw fun hs hn => .of_lemire64 hs (badUnsignedBound_eq_false.1 hn) (.inl rfl)
  | int31n n =>
    exact .of_guardedDraw fun hs hn => .of_lemire32 hs (ne_zero_of_badSignedBound hn) (.inr rfl)
  | int63n n =>
    exact .of_guardedDraw fun hs hn => .of_lemire64 hs (ne_zero_of_badSignedBound hn) (.inr rfl)
  | exp => exact .of_whenSeeded (.of_expPass Config.zig)
  | norm => exact .of_whenSeeded fun hs => .of_normPass Config.zig hs rfl
  | seed | marshal | unmarshal | imgrd | imgwr => cases hi

theorem State.withEngine_of_eq {s s' : State} (hS : s.S = s'.S) (hseeded : s.SEEDED = s'.SEEDED)
    (hpos : s.pos = s'.pos) : s.withEngine s' = s' := by
  rw [State.withEngine, hS, hseeded, hpos]

/-- Settles O58: the two blocks come out with one answer, which writes neither image nor residue. -/
theorem samplersSeeOnlyTheEngine : Obligations.SamplersSeeOnlyTheEngine := by
  intro i s s' hi hbytes hS hseeded hpos hbusy hbusy'
  obtain ⟨a, -, happly⟩ := exec_samples hi hbytes s
  have happly' := happly s'
  rw [State.withEngine_of_eq hS hseeded hpos] at happly'
  refine ⟨_, _, happly s, happly', ?_⟩
  cases a with
  | ends x st v => exact ⟨rfl, hseeded, hpos, rfl, fun _ => rfl, rfl, rfl, rfl⟩
  | goesOn x p =>
    exact ⟨rfl, hseeded, rfl, hbusy.trans hbusy'.symm, fun hidle => absurd (hbusy.symm.trans hidle) (by decide),
      rfl, rfl, rfl⟩

/-! ## What a pass can write (10_state.md R32) -/

/-- What a pass of command `i` from `s` leaves: an answer and nothing else, the answer of a sampler, the
residue some bytes further on, a loaded word, or an image. -/
inductive PassEffect (i : Instr) (s : State) : State → Prop where
  | answered {st : Status} (v : Word) (hst : st ≠ .invalidSeed) : PassEffect i s (s.finish st v)
  | sampled {a : SamplerAnswer} (hi : drawingClass i = true) (ha : a.Legal i s) : PassEffect i s (a.apply s)
  | bytesRead {c : BitVec 4} (v : Word) (hi : i = .rdbytes c) (hs : s.SEEDED = true) :
      PassEffect i s ((s.afterBytes c.toNat).finish .ok v)
  | loaded (w : Word) (hi : (∃ w, i = .seed w) ∨ i = .unmarshal 16#64) :
      PassEffect i s ((s.load w).finish .ok 0#64)
  | imaged {m : Memory} (v : Word) (hi : i = .marshal ∨ ∃ a b, i = .imgwr a b)
      (hm : s.IMG.wf = true → m.wf = true) : PassEffect i s ({ s with IMG := m }.finish .ok v)

namespace PassEffect

variable {i : Instr} {s t : State}

theorem of_raise {st : Status} (hst : st ≠ .invalidSeed) (h : raise st s = .next t) : PassEffect i s t := by
  cases h
  exact .answered _ hst

theorem of_whenSeeded {body : State → Result} (h : whenSeeded s body = .next t)
    (hbody : s.SEEDED = true → body s = .next t → PassEffect i s t) : PassEffect i s t := by
  cases hs : s.SEEDED with
  | false => exact of_raise (st := .notSeeded) (by decide) ((whenSeeded_of_unseeded hs body).symm.trans h)
  | true => exact hbody hs ((whenSeeded_of_seeded hs body).symm.trans h)

theorem of_exec_sampler (hi : drawingClass i = true) (hbytes : ∀ c, i ≠ .rdbytes c)
    (h : exec i s = .next t) : PassEffect i s t := by
  obtain ⟨a, ha, happly⟩ := exec_samples hi hbytes s
  cases (happly s).symm.trans h
  exact .sampled hi ha

end PassEffect

/-- Every pass of every command has one of these effects. -/
theorem passEffect_of_exec {i : Instr} {s t : State} (h : exec i s = .next t) : PassEffect i s t := by
  cases i with
  | next64 | next32 | unif | bound32 | bound64 | int31n | int63n | exp | norm =>
    exact .of_exec_sampler rfl nofun h
  | rdbytes c =>
    rw [exec, execRdbytes] at h
    split at h
    · exact .of_raise (st := .illegalCommand) (by decide) h
    · refine .of_whenSeeded h fun hs hdone => ?_
      cases hdone
      exact .bytesRead _ rfl hs
  | seed w =>
    cases h
    exact .loaded w (.inl ⟨w, rfl⟩)
  | unmarshal len =>
    rw [exec_unmarshal, execUnmarshal] at h
    split_ifs at h with hlen
    · exact .of_raise (st := .invalidFormat) (by decide) h
    · exact .of_raise (st := .invalidFormat) (by decide) h
    · obtain rfl := Host.Outcome.next.inj h
      exact .loaded _ (.inr (congrArg Instr.unmarshal (not_not.1 hlen)))
  | marshal =>
    refine .of_whenSeeded ((exec_marshal s).symm.trans h) fun _ hdone => ?_
    cases hdone
    exact .imaged _ (.inl rfl) fun hwf => writeImage_wf hwf _
  | imgrd a =>
    cases h
    exact .answered (st := .ok) _ (by decide)
  | imgwr a b =>
    cases (exec_imgwr a b s).symm.trans h
    exact .imaged _ (.inr ⟨a, b, rfl⟩) fun hwf => setByte_wf hwf a.isLt b

/-- Settles O12: an end with another status than `OK` is an exit by `raise`, which writes `RSP` and ends. -/
theorem failedCommandChangesNothing : Obligations.FailedCommandChangesNothing := by
  intro i s t hbusy h hend hstatus
  cases passOutcome_of_exec h with
  | returned u v ht => exact absurd (ht ▸ statusField_mkResponse .ok v) hstatus
  | raised st hst ht =>
    subst ht
    rw [State.finish_RSP, statusField_mkResponse]
    rfl
  | goesOn hi hgo => exact absurd (hbusy.symm.trans (hgo.symm.trans hend)) (by decide)

/-! ## The invariant (10_state.md R33) -/

/-- The latches of a running legal command fit exactly when the command is at its head, or stands in a seeded
block where it can stand. -/
theorem State.latchesFit_iff {s : State} {i : Instr} (h : decode s.latch = .command i) :
    s.latchesFit ↔ s.pos = .start ∨ (s.SEEDED = true ∧ s.pos.Fits i) := by
  cases hpos : s.pos <;> simp [State.latchesFit, Position.Fits, hpos, h]

/-- Every end of a command keeps the invariant that its block has but for the response. -/
theorem State.Invariant.finish (u : State) (himage : u.IMG.wf = true) (hresidue : u.RDPOS.toNat ≤ 8)
    (hunseeded : u.SEEDED = false → u.RDPOS = 0#4) {st : Status} (hst : st ≠ .invalidSeed) (v : Word) :
    (u.finish st v).Invariant where
  image := himage
  residue := hresidue
  unseeded := hunseeded
  status _ := by
    rw [State.finish_RSP, statusField_mkResponse]
    cases st with
    | invalidSeed => exact absurd rfl hst
    | ok | invalidArgument | invalidFormat | notSeeded | illegalCommand => rfl
  latches := nofun

theorem State.refill_RDPOS_le {s : State} (h : s.RDPOS.toNat ≤ 8) : s.refill.RDPOS.toNat ≤ 8 := by
  obtain ⟨_, hr⟩ | ⟨_, hr⟩ := s.refill_cases <;> rw [hr]
  exacts [h, (by decide : (8#4).toNat ≤ 8)]

theorem State.afterBytes_RDPOS_le (c : Nat) {s : State} (h : s.RDPOS.toNat ≤ 8) :
    (s.afterBytes c).RDPOS.toNat ≤ 8 := by
  induction c generalizing s with
  | zero => exact h
  | succ c ih =>
    have hpred := toNat_sub_one_add_one s.refill_RDPOS_ne_zero
    have hrefill := State.refill_RDPOS_le h
    exact ih (by rw [State.shiftByte_RDPOS]; omega)

theorem State.afterBytes_SEEDED (c : Nat) (s : State) : (s.afterBytes c).SEEDED = s.SEEDED := by
  rw [State.afterBytes_frame]

theorem State.afterBytes_IMG (c : Nat) (s : State) : (s.afterBytes c).IMG = s.IMG := by
  rw [State.afterBytes_frame]

/-- The pass of a legal command keeps the invariant. -/
theorem PassEffect.keepsInvariant {i : Instr} {s t : State} (h : PassEffect i s t) (hs : s.Invariant)
    (hbusy : s.BUSY = true) (hdec : decode s.latch = .command i) : t.Invariant := by
  cases h with
  | answered v hst => exact .finish s hs.image hs.residue hs.unseeded hst v
  | @sampled a hi ha =>
    cases a with
    | ends x st v => exact .finish { s with S := x } hs.image hs.residue hs.unseeded ha v
    | goesOn x p =>
      obtain ⟨hseeded, hfits⟩ := ha
      have hpos : s.pos.Fits i := by
        obtain hstart | ⟨_, hpos⟩ := (State.latchesFit_iff hdec).1 (hs.latches hbusy)
        · rw [hstart]; trivial
        · exact hpos
      exact ⟨hs.image, hs.residue, hs.unseeded, hs.status,
        fun _ => (State.latchesFit_iff (s := { s with S := x, pos := p }) hdec).2 (.inr ⟨hseeded, hfits hpos⟩)⟩
  | bytesRead v hi hseeded =>
    refine .finish _ ?_ (State.afterBytes_RDPOS_le _ hs.residue) (fun hun => ?_) (by decide) v
    · rw [State.afterBytes_IMG]; exact hs.image
    · rw [State.afterBytes_SEEDED, hseeded] at hun
      cases hun
  | loaded w hi => exact .finish (s.load w) hs.image (Nat.zero_le 8) (fun _ => rfl) Status.noConfusion 0#64
  | @imaged m v hi hm =>
    exact .finish { s with IMG := m } (hm hs.image) hs.residue hs.unseeded Status.noConfusion v

/-- What the host does next plays no part in the invariant. -/
theorem State.Invariant.withEvents {s : State} (h : s.Invariant) (es : List Event) :
    State.Invariant { s with events := es } :=
  ⟨h.image, h.residue, h.unseeded, h.status, h.latches⟩

theorem sequencerStep_of_command {s : State} {i : Instr} (h : decode s.latch = .command i) :
    sequencerStep s = exec i s := by
  rw [sequencerStep, h]

theorem sequencerStep_keepsInvariant {s t : State} (hs : s.Invariant) (hbusy : s.BUSY = true)
    (h : sequencerStep s = .next t) : t.Invariant := by
  cases hdec : decode s.latch with
  | command i =>
    rw [sequencerStep_of_command hdec] at h
    exact (passEffect_of_exec h).keepsInvariant hs hbusy hdec
  | illegal why =>
    rw [sequencerStep_of_illegal hdec] at h
    cases h
    exact .finish s hs.image hs.residue hs.unseeded (by decide) 0#64

theorem reset_invariant : State.reset.Invariant where
  image := reset_wf
  residue := Nat.zero_le 8
  unseeded _ := rfl
  status := nofun
  latches := nofun

/-- Settles O57. -/
theorem resetMeetsInvariant : Obligations.ResetMeetsInvariant := reset_invariant

/-- Settles O56: a step is a reset, an event of the host alone, an acceptance, which puts the command at its
head, a pass, or idle. -/
theorem everyStepKeepsInvariant : Obligations.EveryStepKeepsInvariant := by
  intro s t hs h
  obtain ⟨rest, _, rfl⟩ | ⟨e, rest, _, _, rfl⟩ | ⟨w, rest, _, _, rfl⟩ | ⟨hbusy, _, hpass⟩ |
    ⟨rest, _, hbusy, hpass⟩ | ⟨_, _, rfl⟩ := step_cases h
  · exact reset_invariant.withEvents rest
  · exact hs.withEvents rest
  · exact ⟨hs.image, hs.residue, hs.unseeded, hs.status, fun _ => trivial⟩
  · exact sequencerStep_keepsInvariant hs hbusy hpass
  · exact sequencerStep_keepsInvariant (hs.withEvents rest) hbusy hpass
  · exact hs

/-! ## The write columns of R32 -/

/-- What a step changes it changes under a command listed for it (10_state.md R32). -/
structure ListedWrites (s t : State) : Prop where
  keepsSeeded : s.SEEDED = true → t.SEEDED = true := by exact id
  seeded : t.SEEDED ≠ s.SEEDED → s.BUSY = true ∧
    ((∃ w, decode s.latch = .command (.seed w)) ∨ decode s.latch = .command (.unmarshal 16#64)) := by
      exact absurd rfl
  engine : t.S ≠ s.S → s.BUSY = true ∧ ∃ i, decode s.latch = .command i ∧
    (drawingClass i = true ∨ (∃ w, i = .seed w) ∨ i = .unmarshal 16#64) := by exact absurd rfl
  residueBytes : t.RDVAL ≠ s.RDVAL → s.BUSY = true ∧ ∃ c, decode s.latch = .command (.rdbytes c) := by
    exact absurd rfl
  residueCount : t.RDPOS ≠ s.RDPOS → s.BUSY = true ∧ ∃ i, decode s.latch = .command i ∧
    ((∃ c, i = .rdbytes c) ∨ (∃ w, i = .seed w) ∨ i = .unmarshal 16#64) := by exact absurd rfl
  image : t.IMG ≠ s.IMG → s.BUSY = true ∧
    (decode s.latch = .command .marshal ∨ ∃ a b, decode s.latch = .command (.imgwr a b)) := by
      exact absurd rfl
  response : t.RSP ≠ s.RSP → s.BUSY = true ∧ t.BUSY = false := by exact absurd rfl

theorem PassEffect.listedWrites {i : Instr} {s t : State} (h : PassEffect i s t) (hbusy : s.BUSY = true)
    (hdec : decode s.latch = .command i) : ListedWrites s t := by
  have reads {j : Instr} (hj : i = j) : decode s.latch = .command j := hdec.trans (congrArg _ hj)
  cases h with
  | answered v hst => exact { response := fun _ => ⟨hbusy, rfl⟩ }
  | @sampled a hi ha =>
    have drew : s.BUSY = true ∧ ∃ i, decode s.latch = .command i ∧
        (drawingClass i = true ∨ (∃ w, i = .seed w) ∨ i = .unmarshal 16#64) :=
      ⟨hbusy, i, hdec, .inl hi⟩
    cases a with
    | ends x st v => exact { engine := fun _ => drew, response := fun _ => ⟨hbusy, rfl⟩ }
    | goesOn x p => exact { engine := fun _ => drew }
  | @bytesRead c v hi hs =>
    subst hi
    rw [State.afterBytes_frame]
    exact {
      engine := fun _ => ⟨hbusy, _, hdec, .inl rfl⟩
      residueBytes := fun _ => ⟨hbusy, c, hdec⟩
      residueCount := fun _ => ⟨hbusy, _, hdec, .inl ⟨c, rfl⟩⟩
      response := fun _ => ⟨hbusy, rfl⟩ }
  | loaded w hi =>
    exact {
      keepsSeeded := fun _ => rfl
      seeded := fun _ => ⟨hbusy, hi.imp (fun ⟨w, hw⟩ => ⟨w, reads hw⟩) reads⟩
      engine := fun _ => ⟨hbusy, i, hdec, .inr hi⟩
      residueCount := fun _ => ⟨hbusy, i, hdec, .inr hi⟩
      response := fun _ => ⟨hbusy, rfl⟩ }
  | imaged v hi hm =>
    exact {
      image := fun _ => ⟨hbusy, hi.imp reads fun ⟨a, b, hw⟩ => ⟨a, b, reads hw⟩⟩
      response := fun _ => ⟨hbusy, rfl⟩ }

theorem sequencerStep_listedWrites {s t : State} (hbusy : s.BUSY = true) (h : sequencerStep s = .next t) :
    ListedWrites s t := by
  cases hdec : decode s.latch with
  | command i =>
    rw [sequencerStep_of_command hdec] at h
    exact (passEffect_of_exec h).listedWrites hbusy hdec
  | illegal why =>
    rw [sequencerStep_of_illegal hdec] at h
    cases h
    exact { response := fun _ => ⟨hbusy, rfl⟩ }

theorem step_listedWrites {s t : State} (hreset : ∀ rest, s.events ≠ .reset :: rest) (h : step s = .next t) :
    ListedWrites s t := by
  obtain ⟨rest, hev, rfl⟩ | ⟨e, rest, _, _, rfl⟩ | ⟨w, rest, _, _, rfl⟩ | ⟨hbusy, _, hpass⟩ |
    ⟨rest, _, hbusy, hpass⟩ | ⟨_, _, rfl⟩ := step_cases h
  · exact absurd hev (hreset rest)
  · exact {}
  · exact {}
  · exact sequencerStep_listedWrites hbusy hpass
  · have hw := sequencerStep_listedWrites (s := { s with events := rest }) hbusy hpass
    exact ⟨hw.keepsSeeded, hw.seeded, hw.engine, hw.residueBytes, hw.residueCount, hw.image, hw.response⟩
  · exact {}

/-- Settles O60: of all steps only a pass writes a register or the image, and each effect of one has its
commands. -/
theorem onlyListedCommandsWriteState : Obligations.OnlyListedCommandsWriteState := fun _ _ hreset h =>
  have hw := step_listedWrites hreset h
  ⟨hw.keepsSeeded, hw.seeded, hw.engine, hw.residueBytes, hw.residueCount, hw.image, hw.response⟩

end Sys2Proof.Machine

/-! PROOFS. Family other, the step of the machine: the words the decoder reads, the events that take no pass,
and that no step reads a value that means nothing. -/

namespace Sys2Proof.Machine

/-! ## The decoder (30_encoding.md) -/

/-- Settles O1: the decoder asks for the opcode of the command's row and takes the operand out of its field. -/
theorem decodeInvertsEncode : Obligations.DecodeInvertsEncode := fun _ => decode_encode

/-- Settles O4: each word is the word of the well-formed command listed beside it. -/
theorem specWordsDecodeAsListed : Obligations.SpecWordsDecodeAsListed :=
  ⟨decode_eq_command_iff.2 ⟨rfl, by decide⟩, decode_eq_command_iff.2 ⟨rfl, by decide⟩,
    decode_eq_command_iff.2 ⟨rfl, by decide⟩, decode_eq_command_iff.2 ⟨rfl, by decide⟩,
    decode_eq_command_iff.2 ⟨rfl, by decide⟩⟩

/-! ## The port, event by event (70_reset_and_hazards.md R265, R271) -/

/-- Settles O8: the reset values, the image an empty list. -/
theorem resetStateAsListed : Obligations.ResetStateAsListed := ⟨rfl, rfl, rfl, byteAt_reset⟩

/-- While a command runs and the host is held or silent, the step is the sequencer's pass. -/
theorem step_of_isHeld {s : State} (hbusy : s.BUSY = true) (hheld : ∀ e ∈ s.events.head?, e.isHeld = true) :
    step s = sequencerStep s := by
  cases hev : s.events with
  | nil => exact step_of_running hbusy hev
  | cons e rest =>
    have he : e.isHeld = true := hheld e (by simp [hev])
    cases e with
    | command w => exact step_of_held hbusy hev
    | waitIdle => simp [step, portStep, hev, hbusy]
    | reset | readBusy | readRsp => cases he

/-- A read of `BUSY` while a command runs is taken off the list and the pass goes by. -/
theorem step_of_readBusy {s : State} {rest : List Event} (hbusy : s.BUSY = true)
    (hev : s.events = .readBusy :: rest) : step s = sequencerStep { s with events := rest } := by
  simp [step, portStep, hev, hbusy]

/-- A read of `RSP` while a command runs is the host's fault (log entry 8). -/
theorem step_of_readRsp_busy {s : State} {rest : List Event} (hbusy : s.BUSY = true)
    (hev : s.events = .readRsp :: rest) : step s = .fault .rspReadWhileBusy := by
  simp [step, portStep, hev, State.readRsp_busy hbusy]

/-- An idle block with nothing offered stays as it is. -/
theorem step_of_idle {s : State} (hidle : s.BUSY = false) (hev : s.events = []) : step s = .next s := by
  simp [step, portStep, hev, hidle]

/-- The host's reads and its wait are over at once on an idle block. -/
theorem step_of_idle_host {s : State} {e : Event} {rest : List Event} (hidle : s.BUSY = false)
    (hev : s.events = e :: rest) (he : e = .readBusy ∨ e = .waitIdle ∨ e = .readRsp) :
    step s = .next { s with events := rest } := by
  obtain rfl | rfl | rfl := he
  · simp [step, portStep, hev, hidle]
  · simp [step, portStep, hev, hidle]
  · simp [step, portStep, hev, State.readRsp_idle hidle]

/-- Settles O9: the five cases of the host's reads. -/
theorem hostReadsChangeNothing : Obligations.HostReadsChangeNothing := by
  have idle {s : State} (h : s.mayReadRsp = true) : s.BUSY = false := by
    rw [State.mayReadRsp, Bool.and_eq_true, Bool.not_eq_true'] at h
    exact h.1
  exact ⟨fun _ => step_of_idle, fun _ _ hidle hev => step_of_idle_host hidle hev (.inl rfl),
    fun _ _ hmay hev => ⟨State.readRsp_idle (idle hmay), step_of_idle_host (idle hmay) hev (.inr (.inr rfl))⟩,
    fun _ _ hidle _ hev => ⟨State.readRsp_idle hidle, step_of_idle_host hidle hev (.inr (.inr rfl))⟩,
    fun _ _ => step_of_readRsp_busy⟩

/-- Nothing comes before the first pass of a placed word: the events before the first held one are dropped. -/
theorem State.place_head_isHeld (s : State) (w : Command) :
    ∀ e ∈ (s.place w).events.head?, e.isHeld = true := by
  intro e he
  have hdrop := List.head?_dropWhile_not (fun e : Event => !e.isHeld) s.events
  rw [State.place, State.accept_events, Option.mem_def] at he
  rw [he] at hdrop
  simpa using hdrop

/-- Settles O5: the three ways a pass of the latched command comes by. -/
theorem stepRunsLatchedCommand : Obligations.StepRunsLatchedCommand :=
  ⟨fun _ _ hbusy hdec hheld => (step_of_isHeld hbusy hheld).trans (sequencerStep_of_command hdec),
    fun _ _ _ hbusy hdec hev => (step_of_readBusy hbusy hev).trans (sequencerStep_of_command hdec),
    fun s _ _ hdec => (step_of_isHeld rfl (s.place_head_isHeld _)).trans (sequencerStep_of_command hdec)⟩

/-! ## Values that mean nothing (10_state.md R30, R34) -/

/-- Two answers that tell alike blocks apart no more than the blocks were. -/
inductive AlikeAnswers : Result → Result → Prop where
  | next {t t' : State} (h : t.Alike t') : AlikeAnswers (.next t) (.next t')
  | fault (f : Fault) : AlikeAnswers (.fault f) (.fault f)

namespace State.Alike

variable {s s' : State}

theorem refl (s : State) : s.Alike s :=
  ⟨rfl, rfl, rfl, rfl, rfl, rfl, fun _ => rfl, fun _ => rfl, fun _ => rfl, fun _ => ⟨rfl, rfl⟩⟩

theorem finish (h : s.Alike s') (st : Status) (v : Word) : (s.finish st v).Alike (s'.finish st v) :=
  { h with busy := rfl, ended := rfl, response := fun _ => rfl, latches := nofun }

theorem load (h : s.Alike s') (w : Word) : (s.load w).Alike (s'.load w) :=
  { h with seeded := rfl, residueCount := rfl, engine := fun _ => rfl,
           residueBytes := fun hne => absurd rfl hne }

theorem withImage (h : s.Alike s') (m : Memory) : State.Alike { s with IMG := m } { s' with IMG := m } :=
  { h with image := rfl }

theorem withEvents (h : s.Alike s') (es : List Event) :
    State.Alike { s with events := es } { s' with events := es } :=
  { h with events := rfl }

theorem accept (h : s.Alike s') (w : Command) (es : List Event) : (s.accept w es).Alike (s'.accept w es) :=
  { h with busy := rfl, events := rfl, latches := fun _ => ⟨rfl, rfl⟩ }

theorem apply (h : s.Alike s') (a : SamplerAnswer) : (a.apply s).Alike (a.apply s') := by
  cases a with
  | ends x st v =>
    have drew : State.Alike { s with S := x } { s' with S := x } := { h with engine := fun _ => rfl }
    exact drew.finish st v
  | goesOn x p => exact { h with engine := fun _ => rfl, latches := fun hbusy => ⟨(h.latches hbusy).1, rfl⟩ }

/-- A filled residue has bytes that mean something, the same in both blocks. -/
theorem refill (h : s.Alike s') (hs : s.SEEDED = true) :
    s.refill.Alike s'.refill ∧ s.refill.RDVAL = s'.refill.RDVAL := by
  have hdrawn : s.drawn = s'.drawn := by rw [State.drawn, h.engine hs, State.drawn]
  obtain ⟨hne, hr⟩ | ⟨hempty, hr⟩ := s.refill_cases
  · have hr' : s'.refill = s' := if_neg (h.residueCount ▸ hne)
    rw [hr, hr']
    exact ⟨h, h.residueBytes hne⟩
  · have hr' : s'.refill = { s'.afterDraw with RDVAL := s'.drawn, RDPOS := 8#4 } :=
      if_pos (h.residueCount ▸ hempty)
    rw [hr, hr']
    exact ⟨{ h with residueCount := rfl, engine := fun hs => congrArg advance (h.engine hs),
                    residueBytes := fun _ => hdrawn }, hdrawn⟩

theorem shiftByte (h : s.Alike s') (hval : s.RDVAL = s'.RDVAL) : s.shiftByte.Alike s'.shiftByte :=
  { h with residueCount := congrArg (· - 1#4) h.residueCount,
           residueBytes := fun _ => congrArg (fun v : Word => v >>> 8) hval }

theorem afterBytes (c : Nat) (h : s.Alike s') (hs : s.SEEDED = true) :
    (s.afterBytes c).Alike (s'.afterBytes c) ∧ s.bytesOut c = s'.bytesOut c := by
  induction c generalizing s s' with
  | zero => exact ⟨h, rfl⟩
  | succ c ih =>
    obtain ⟨hrefill, hval⟩ := h.refill hs
    have hseeded : s.refill.shiftByte.SEEDED = true := (State.afterBytes_SEEDED 1 s).trans hs
    obtain ⟨hafter, hout⟩ := ih (hrefill.shiftByte hval) hseeded
    exact ⟨hafter, by rw [State.bytesOut, State.bytesOut, hval, hout]⟩

end State.Alike

theorem AlikeAnswers.of_whenSeeded {s s' : State} {body : State → Result} (h : s.Alike s')
    (hbody : s.SEEDED = true → AlikeAnswers (body s) (body s')) :
    AlikeAnswers (whenSeeded s body) (whenSeeded s' body) := by
  cases hs : s.SEEDED with
  | false =>
    rw [whenSeeded_of_unseeded hs, whenSeeded_of_unseeded (h.seeded ▸ hs)]
    exact .next (h.finish _ _)
  | true =>
    rw [whenSeeded_of_seeded hs, whenSeeded_of_seeded (h.seeded ▸ hs)]
    exact hbody hs

/-- Two alike blocks at one position answer a sampler alike: unseeded both refuse, seeded they have one
engine. -/
theorem exec_sampler_alike {i : Instr} (hi : drawingClass i = true) (hbytes : ∀ c, i ≠ .rdbytes c)
    (hwf : i.wellFormed = true) {s s' : State} (h : s.Alike s') (hpos : s.pos = s'.pos) :
    AlikeAnswers (exec i s) (exec i s') := by
  obtain ⟨body, hbody⟩ := exec_eq_whenSeeded hwf (.inl hi)
  rw [hbody s, hbody s']
  refine .of_whenSeeded h fun hs => ?_
  obtain ⟨a, -, happly⟩ := exec_samples hi hbytes s
  have hs' : s'.SEEDED = true := h.seeded ▸ hs
  have hright := happly s'
  rw [State.withEngine_of_eq (h.engine hs) h.seeded hpos, hbody s', whenSeeded_of_seeded hs'] at hright
  have hleft : body s = .next (a.apply s) :=
    (whenSeeded_of_seeded hs body).symm.trans ((hbody s).symm.trans (happly s))
  rw [hleft, hright]
  exact .next (h.apply a)

/-- Two alike blocks at one position answer every command alike. -/
theorem exec_alike {i : Instr} (hwf : i.wellFormed = true) {s s' : State} (h : s.Alike s')
    (hpos : s.pos = s'.pos) : AlikeAnswers (exec i s) (exec i s') := by
  cases i with
  | next64 | next32 | unif | bound32 | bound64 | int31n | int63n | exp | norm =>
    exact exec_sampler_alike rfl (by simp) hwf h hpos
  | rdbytes c =>
    rw [exec_rdbytes (of_decide_eq_true hwf), exec_rdbytes (of_decide_eq_true hwf)]
    refine .of_whenSeeded h fun hs => ?_
    obtain ⟨hafter, hout⟩ := h.afterBytes c.toNat hs
    rw [hout]
    exact .next (hafter.finish _ _)
  | seed w => exact .next ((h.load w).finish _ _)
  | marshal =>
    rw [exec_marshal, exec_marshal]
    refine .of_whenSeeded h fun hs => ?_
    have himage : writeImage s'.IMG s'.S = writeImage s.IMG s.S := by rw [h.engine hs, h.image]
    rw [himage]
    exact .next ((h.withImage _).finish _ _)
  | unmarshal len =>
    rw [exec_unmarshal, exec_unmarshal, execUnmarshal, execUnmarshal, h.image]
    split_ifs
    · exact .next (h.finish _ _)
    · exact .next (h.finish _ _)
    · exact .next ((h.load _).finish _ _)
  | imgrd a =>
    rw [exec_imgrd, exec_imgrd, h.image]
    exact .next (h.finish _ _)
  | imgwr a b =>
    rw [exec_imgwr, exec_imgwr, h.image]
    exact .next ((h.withImage _).finish _ _)

theorem sequencerStep_alike {s s' : State} (h : s.Alike s') (hbusy : s.BUSY = true) :
    AlikeAnswers (sequencerStep s) (sequencerStep s') := by
  obtain ⟨hlatch, hpos⟩ := h.latches hbusy
  cases hdec : decode s.latch with
  | command i =>
    rw [sequencerStep_of_command hdec, sequencerStep_of_command (hlatch ▸ hdec)]
    exact exec_alike (decode_eq_command_iff.1 hdec).1 h hpos
  | illegal why =>
    rw [sequencerStep_of_illegal hdec, sequencerStep_of_illegal (hlatch ▸ hdec)]
    exact .next (h.finish _ _)

/-- Two alike blocks step alike while a command runs in both. -/
theorem step_alike_of_busy {s s' : State} (h : s.Alike s') (hbusy : s.BUSY = true) :
    AlikeAnswers (step s) (step s') := by
  have hbusy' : s'.BUSY = true := h.busy ▸ hbusy
  have pass (hheld : ∀ e ∈ s.events.head?, e.isHeld = true) : AlikeAnswers (step s) (step s') := by
    rw [step_of_isHeld hbusy hheld, step_of_isHeld hbusy' (h.events ▸ hheld)]
    exact sequencerStep_alike h hbusy
  cases hev : s.events with
  | nil => exact pass (by simp [hev])
  | cons e rest =>
    have hev' : s'.events = e :: rest := h.events ▸ hev
    cases e with
    | command | waitIdle => exact pass (by simp [hev, Event.isHeld])
    | readBusy =>
      rw [step_of_readBusy hbusy hev, step_of_readBusy hbusy' hev']
      exact sequencerStep_alike (h.withEvents rest) hbusy
    | readRsp =>
      rw [step_of_readRsp_busy hbusy hev, step_of_readRsp_busy hbusy' hev']
      exact .fault _
    | reset =>
      rw [step_of_reset hev, step_of_reset hev']
      exact .next (.refl _)

/-- Two alike blocks step alike while both are idle. -/
theorem step_alike_of_idle {s s' : State} (h : s.Alike s') (hidle : s.BUSY = false) :
    AlikeAnswers (step s) (step s') := by
  have hidle' : s'.BUSY = false := h.busy ▸ hidle
  cases hev : s.events with
  | nil =>
    rw [step_of_idle hidle hev, step_of_idle hidle' (h.events ▸ hev)]
    exact .next h
  | cons e rest =>
    have hev' : s'.events = e :: rest := h.events ▸ hev
    cases e with
    | command w =>
      rw [step_of_offered hidle hev, step_of_offered hidle' hev']
      exact .next (h.accept w rest)
    | readBusy | waitIdle | readRsp =>
      rw [step_of_idle_host hidle hev (by simp), step_of_idle_host hidle' hev' (by simp)]
      exact .next (h.withEvents rest)
    | reset =>
      rw [step_of_reset hev, step_of_reset hev']
      exact .next (.refl _)

/-- Settles O59: running or idle, alike blocks answer alike. -/
theorem deadValuesAreNeverRead : Obligations.DeadValuesAreNeverRead := by
  intro s s' h
  have answers : AlikeAnswers (step s) (step s') := by
    cases hbusy : s.BUSY with
    | true => exact step_alike_of_busy h hbusy
    | false => exact step_alike_of_idle h hbusy
  generalize step s = r at answers
  generalize step s' = r' at answers
  cases answers with
  | @next t t' ht => exact ⟨fun u hu => ⟨t', rfl, Host.Outcome.next.inj hu ▸ ht⟩, nofun⟩
  | fault f => exact ⟨nofun, fun _ hf => hf⟩

end Sys2Proof.Machine

/-! PROOFS. Family other, 40_bitengine.md: the generator's functions as bijections, its period, and the
chunked-read law. -/

namespace Sys2Proof.Machine

/-! ## Bijections (properties (a) and (b) of section 1) -/

/-- A word is recovered from its xor step bit by bit, from the highest bit down. -/
theorem xorShift_injective {k : Nat} (hk : 0 < k) : Function.Injective (xorShift k) := by
  intro x y h
  have bits (n : Nat) : ∀ i, 64 ≤ i + n → x.getLsbD i = y.getLsbD i := by
    induction n with
    | zero => exact fun i hi => by rw [x.getLsbD_of_ge i hi, y.getLsbD_of_ge i hi]
    | succ n ih =>
      intro i hi
      have hbit := congrArg (BitVec.getLsbD · i) h
      simpa [xorShift, ih (k + i) (by omega)] using hbit
  exact BitVec.eq_of_getLsbD_eq fun i _ => bits 64 i (Nat.le_add_left 64 i)

/-- The inverse of the increment modulo 2^64. -/
def gammaInverse : Word := 0xF1DE83E19937733D#64

theorem gammaInverse_mul_gamma : gammaInverse * gamma = 1 := by decide

theorem mix1_isUnit : IsUnit mix1 :=
  IsUnit.of_mul_eq_one 0x96DE1B173F119089#64 (by decide)

theorem mix2_isUnit : IsUnit mix2 :=
  IsUnit.of_mul_eq_one 0x319642B2D24D8EC3#64 (by decide)

theorem advance_injective : Function.Injective advance := add_right_injective gamma

theorem mix_injective : Function.Injective mix :=
  (xorShift_injective (by decide)).comp <| mix2_isUnit.mul_right_injective.comp <|
    (xorShift_injective (by decide)).comp <| mix1_isUnit.mul_right_injective.comp <|
      xorShift_injective (by decide)

theorem mix_bijective : Function.Bijective mix := Finite.injective_iff_bijective.1 mix_injective

/-- Settles O15: the state update adds a constant; every step of the output function is injective. -/
theorem generatorFunctionsAreBijections : Obligations.GeneratorFunctionsAreBijections :=
  ⟨Finite.injective_iff_bijective.1 advance_injective, mix_bijective⟩

/-! ## The period (property (c) of section 1) -/

theorem iterate_advance (k : Nat) (x : Word) : advance^[k] x = BitVec.ofNat 64 k * gamma + x := by
  rw [show advance = (gamma + ·) from rfl, add_left_iterate, nsmul_eq_mul, BitVec.natCast_eq_ofNat]

/-- The increment is odd, so only multiples of 2^64 advances give a word back. -/
theorem iterate_advance_eq_self_iff (x : Word) (k : Nat) : advance^[k] x = x ↔ 2 ^ 64 ∣ k := by
  have hunit : IsUnit gamma := IsUnit.of_mul_eq_one_right gammaInverse gammaInverse_mul_gamma
  rw [iterate_advance, add_eq_right, hunit.mul_left_eq_zero, ← BitVec.toNat_inj, BitVec.toNat_ofNat,
    Nat.dvd_iff_mod_eq_zero]
  rfl

/-- Every word is reached from every word. -/
theorem exists_iterate_advance (x y : Word) : ∃ j < 2 ^ 64, advance^[j] x = y := by
  refine ⟨((y - x) * gammaInverse).toNat, BitVec.isLt _, ?_⟩
  rw [iterate_advance, BitVec.ofNat_toNat, BitVec.setWidth_eq, mul_assoc, gammaInverse_mul_gamma, mul_one,
    sub_add_cancel]

/-- Fewer than 2^64 advances apart, the words differ. -/
theorem iterate_advance_injOn {x : Word} {i j : Nat} (hi : i < 2 ^ 64) (hj : j < 2 ^ 64)
    (h : advance^[i] x = advance^[j] x) : i = j := by
  have apart {m n : Nat} (hm : m < 2 ^ 64) (h : advance^[m] x = advance^[n] x) : m ≤ n := by
    have hdvd := (iterate_advance_eq_self_iff x (m - n)).1 (Function.iterate_cancel advance_injective h)
    exact Nat.sub_eq_zero_iff_le.1 (Nat.eq_zero_of_dvd_of_lt hdvd ((Nat.sub_le m n).trans_lt hm))
  exact le_antisymm (apart hi h) (apart hj h.symm)

theorem State.rawWord_eq (s : State) (j : Nat) : s.rawWord j = mix (advance^[j] (advance s.S)) := rfl

/-- Every word is the raw word of one of the next 2^64 draws. -/
theorem State.exists_rawWord_eq (s : State) (v : Word) : ∃ j < 2 ^ 64, s.rawWord j = v := by
  obtain ⟨w, rfl⟩ := mix_bijective.surjective v
  obtain ⟨j, hj, hw⟩ := exists_iterate_advance (advance s.S) w
  exact ⟨j, hj, by rw [State.rawWord_eq, hw]⟩

/-- Settles O16: the states to come run through all words once, and so do their raw words. -/
theorem everyWordOncePerPeriod : Obligations.EveryWordOncePerPeriod := by
  refine ⟨fun s v => ?_, iterate_advance_eq_self_iff⟩
  obtain ⟨j, hj, hv⟩ := s.exists_rawWord_eq v
  refine ⟨j, ⟨hj, hv⟩, fun i ⟨hi, hv'⟩ => iterate_advance_injOn (x := advance s.S) hi hj (mix_injective ?_)⟩
  exact hv'.trans hv.symm

/-! ## The chunked-read law (section 6) -/

/-- The loop of R119 moves the stream on by the bytes it has given out. -/
theorem State.streamByte_afterBytes (c : Nat) (s : State) (k : Nat) :
    (s.afterBytes c).streamByte k = s.streamByte (c + k) := by
  induction c generalizing s k with
  | zero => rw [State.afterBytes, Nat.zero_add]
  | succ c ih =>
    rw [State.afterBytes, ih, State.streamByte_shiftByte s.refill_RDPOS_ne_zero, State.streamByte_refill,
      Nat.add_right_comm]

/-- The block after a `RDBYTES` that gives out `c` bytes. -/
def State.afterRead (c : Nat) (s : State) : State := (s.afterBytes c).finish .ok (s.bytesOut c)

theorem State.streamByte_afterRead (c : Nat) (s : State) (k : Nat) :
    (s.afterRead c).streamByte k = s.streamByte (c + k) := s.streamByte_afterBytes c k

/-- A legal `RDBYTES` on a seeded block gives out the next bytes of the stream. -/
theorem readChunks_cons {c : BitVec 4} (hc : c.toNat ≤ 8) {s : State} (hs : s.SEEDED = true)
    (cs : List (BitVec 4)) :
    readChunks (c :: cs) s = (readChunks cs (s.afterRead c.toNat)).map fun (bs, u) =>
      ((List.range c.toNat).map s.streamByte ++ bs, u) := by
  have hexec : exec (.rdbytes c) s = .next (s.afterRead c.toNat) :=
    (exec_rdbytes hc s).trans (whenSeeded_of_seeded hs _)
  have hstatus : statusField (s.afterRead c.toNat).RSP = 0#4 := statusField_mkResponse .ok _
  have hdata : dataField (s.afterRead c.toNat).RSP = s.bytesOut c.toNat := dataField_mkResponse .ok _
  have hbytes : (List.range c.toNat).map (byteOf (s.bytesOut c.toNat)) =
      (List.range c.toNat).map s.streamByte := by
    refine List.map_congr_left fun k hk => ?_
    have hk := List.mem_range.1 hk
    rw [State.byteOf_bytesOut _ s (by omega), if_pos hk]
  rw [readChunks, hexec]
  simp only [hstatus, hdata, hbytes, if_true]

/-- A sequence of `RDBYTES` gives out the stream, by induction on the sequence. -/
theorem readChunks_eq_stream (cs : List (BitVec 4)) {s : State} (hcs : ∀ c ∈ cs, c.toNat ≤ 8)
    (hs : s.SEEDED = true) :
    ∃ t, readChunks cs s = some ((List.range (cs.map BitVec.toNat).sum).map s.streamByte, t) ∧
      ∀ k, t.streamByte k = s.streamByte ((cs.map BitVec.toNat).sum + k) := by
  induction cs generalizing s with
  | nil => exact ⟨s, rfl, fun k => by simp⟩
  | cons c cs ih =>
    obtain ⟨t, hread, hrest⟩ := ih (s := s.afterRead c.toNat) (fun d hd => hcs d (List.mem_cons_of_mem c hd))
      ((s.afterBytes_SEEDED c.toNat).trans hs)
    have hstream : (s.afterRead c.toNat).streamByte = fun k => s.streamByte (c.toNat + k) :=
      funext (s.streamByte_afterRead c.toNat)
    refine ⟨t, ?_, fun k => ?_⟩
    · rw [readChunks_cons (hcs c List.mem_cons_self) hs, hread, hstream, List.map_cons, List.sum_cons,
        List.range_add, List.map_append, List.map_map]
      rfl
    · rw [hrest, hstream, List.map_cons, List.sum_cons, Nat.add_assoc]

/-- Settles O22: both sequences give out the first bytes of one stream. -/
theorem chunkedReadLaw : Obligations.ChunkedReadLaw := by
  refine ⟨fun cs s hcs _ hs => readChunks_eq_stream cs hcs hs, fun cs ds s hcs hds _ hs hsum => ?_⟩
  obtain ⟨t, ht, -⟩ := readChunks_eq_stream cs hcs hs
  obtain ⟨u, hu, -⟩ := readChunks_eq_stream ds hds hs
  rw [ht, hu, hsum]
  rfl

end Sys2Proof.Machine

/-! PROOFS. Family other, 41_bounded.md: one draw on both multipliers, the threshold, the counting fact, and
that the bounded commands end. -/

namespace Sys2Proof.Machine

/-! ## The multipliers and the threshold -/

/-- Settles O24: the product of two half words fits the low word, which is then the 32-bit product. -/
theorem bothMultipliersGiveOneDraw : Obligations.BothMultipliersGiveOneDraw := by
  intro v n
  have hle := half_mul_half_le v n
  have hexact := mul64_exact (v.setWidth 64) (n.setWidth 64)
  rw [BitVec.toNat_setWidth_of_le (by decide), BitVec.toNat_setWidth_of_le (by decide)] at hexact
  have hlo : (mul64 (v.setWidth 64) (n.setWidth 64)).lo = mul32 v n := by
    apply BitVec.eq_of_toNat_eq
    rw [mul32_toNat]
    omega
  refine ⟨BitVec.eq_of_toNat_eq ?_, congrArg highHalf hlo, congrArg lowHalf hlo⟩
  rw [BitVec.toNat_zero]
  omega

theorem toNat_pos_of_ne_zero {w : Nat} {n : BitVec w} (hn : n ≠ 0#w) : 0 < n.toNat :=
  Nat.pos_of_ne_zero fun h => hn (BitVec.eq_of_toNat_eq (by simpa using h))

theorem thresholdNat_eq_mod {w n : Nat} (h : n ≤ 2 ^ w) : thresholdNat w n = 2 ^ w % n :=
  (Nat.mod_eq_sub_mod h).symm

/-- The powers of two are the divisors of `2^w`. -/
theorem two_pow_mod_eq_zero_iff {w n : Nat} (h : n < 2 ^ w) : 2 ^ w % n = 0 ↔ ∃ k, n = 2 ^ k := by
  rw [← Nat.dvd_iff_mod_eq_zero, Nat.dvd_prime_pow Nat.prime_two]
  constructor
  · rintro ⟨k, -, hk⟩
    exact ⟨k, hk⟩
  · rintro ⟨k, rfl⟩
    exact ⟨k, (Nat.pow_lt_pow_iff_right (by decide)).1 h |>.le, rfl⟩

theorem threshold_facts {w : Nat} {n : BitVec w} (hn : n ≠ 0#w) :
    (threshold n).toNat = (2 ^ w - n.toNat) % n.toNat ∧ (threshold n).toNat = 2 ^ w % n.toNat ∧
      (threshold n).toNat < n.toNat ∧ (threshold n = 0#w ↔ ∃ k, n.toNat = 2 ^ k) := by
  have hmod : (threshold n).toNat = 2 ^ w % n.toNat :=
    (threshold_toNat hn).trans (thresholdNat_eq_mod n.isLt.le)
  refine ⟨threshold_toNat hn, hmod, hmod ▸ Nat.mod_lt _ (toNat_pos_of_ne_zero hn), ?_⟩
  rw [← BitVec.toNat_inj, hmod, BitVec.toNat_ofNat, Nat.zero_mod, two_pow_mod_eq_zero_iff n.isLt]

/-- Settles O25. -/
theorem thresholdFacts : Obligations.ThresholdFacts :=
  ⟨fun _ => threshold_facts, fun _ => threshold_facts⟩

/-- Settles O26: the threshold is below the bound. -/
theorem skippingTheDivisionChangesNothing : Obligations.SkippingTheDivisionChangesNothing :=
  ⟨fun _ p hn => judgeFirst_eq_judgeRedraw hn p, fun _ p hn => judgeFirst_eq_judgeRedraw hn p⟩

/-! ## The counting fact -/

/-- A product accepted with the high half `r` is one between `r * 2^w` and the threshold above it, and
`(r + 1) * 2^w`. -/
theorem accepted_iff {w n r v thr : Nat} :
    (thr ≤ lowPart w n v ∧ highPart w n v = r) ↔ r * 2 ^ w + thr ≤ v * n ∧ v * n < (r + 1) * 2 ^ w := by
  have hpos : 0 < 2 ^ w := Nat.two_pow_pos w
  have hlt : v * n % 2 ^ w < 2 ^ w := Nat.mod_lt _ hpos
  have hsplit := Nat.div_add_mod' (v * n) (2 ^ w)
  rw [lowPart, highPart]
  constructor
  · rintro ⟨hle, rfl⟩
    rw [add_one_mul]
    omega
  · rintro ⟨hle, hlt'⟩
    have hr : v * n / 2 ^ w = r :=
      Nat.div_eq_of_lt_le ((Nat.le_add_right _ _).trans hle) hlt'
    rw [hr] at hsplit
    exact ⟨by omega, hr⟩

/-- Every interval of `n * q` numbers holds the products `v * n` of `q` consecutive `v`. -/
theorem mul_mem_interval_iff {n a q v : Nat} (hn : 0 < n) :
    (a ≤ v * n ∧ v * n < a + q * n) ↔ v ∈ Finset.Ico ((a + n - 1) / n) ((a + n - 1) / n + q) := by
  have ceil (b : Nat) : b ≤ v * n ↔ (b + n - 1) / n ≤ v := by
    rw [Nat.div_le_iff_le_mul_add_pred hn, Nat.mul_comm n]
    omega
  have hshift : (a + q * n + n - 1) / n = (a + n - 1) / n + q := by
    rw [show a + q * n + n - 1 = a + n - 1 + q * n by omega, Nat.add_mul_div_right _ _ hn]
  rw [Finset.mem_Ico, ← ceil a, ← not_le (b := v * n), ceil (a + q * n), hshift, not_le]

/-- The accepted products of high half `r` fill an interval of `n * (2^w div n)` numbers. -/
theorem card_accepted {w n r : Nat} (hn : n < 2 ^ w) (hr : r < n) :
    ((Finset.range (2 ^ w)).filter fun v => thresholdNat w n ≤ lowPart w n v ∧ highPart w n v = r).card =
      2 ^ w / n := by
  have hpos : 0 < n := Nat.zero_lt_of_lt hr
  have hlen : (r + 1) * 2 ^ w = r * 2 ^ w + thresholdNat w n + 2 ^ w / n * n := by
    rw [thresholdNat_eq_mod hn.le, add_assoc, Nat.mod_add_div', add_one_mul]
  have hmem (v : Nat) : (thresholdNat w n ≤ lowPart w n v ∧ highPart w n v = r) ↔
      v ∈ Finset.Ico ((r * 2 ^ w + thresholdNat w n + n - 1) / n)
        ((r * 2 ^ w + thresholdNat w n + n - 1) / n + 2 ^ w / n) := by
    rw [accepted_iff, hlen, mul_mem_interval_iff hpos]
  have hrange (v : Nat) (hv : thresholdNat w n ≤ lowPart w n v ∧ highPart w n v = r) : v < 2 ^ w := by
    have hprod : v * n < (r + 1) * 2 ^ w := (accepted_iff.1 hv).2
    refine Nat.lt_of_mul_lt_mul_right (hprod.trans_le ?_)
    rw [mul_comm]
    exact Nat.mul_le_mul_left _ hr
  calc _ = (Finset.Ico ((r * 2 ^ w + thresholdNat w n + n - 1) / n)
        ((r * 2 ^ w + thresholdNat w n + n - 1) / n + 2 ^ w / n)).card := by
        congr 1
        ext v
        rw [Finset.mem_filter, Finset.mem_range, ← hmem v, and_iff_right_of_imp (hrange v)]
    _ = 2 ^ w / n := by rw [Nat.card_Ico, Nat.add_sub_cancel_left]

/-- The counting fact for a multiplier of any width that is exact. -/
theorem card_accepted_words {w : Nat} {n : BitVec w} (hn : n ≠ 0#w) {product : BitVec w → Halves w}
    (hproduct : ∀ v, (product v).lo.toNat = lowPart w n.toNat v.toNat ∧
      (product v).hi.toNat = highPart w n.toNat v.toNat) {r : Nat} (hr : r < n.toNat) :
    ((Finset.range (2 ^ w)).filter fun v =>
      threshold n ≤ (product (BitVec.ofNat w v)).lo ∧ (product (BitVec.ofNat w v)).hi.toNat = r).card =
      2 ^ w / n.toNat := by
  rw [← card_accepted n.isLt hr]
  refine congrArg Finset.card (Finset.filter_congr fun v hv => ?_)
  obtain ⟨hlo, hhi⟩ := hproduct (BitVec.ofNat w v)
  rw [BitVec.le_def, threshold_toNat hn, hlo, hhi, BitVec.toNat_ofNat,
    Nat.mod_eq_of_lt (Finset.mem_range.1 hv)]

/-- Settles O27: both multipliers are exact. -/
theorem everyResultEquallyOften : Obligations.EveryResultEquallyOften :=
  ⟨fun n hn _ hr => card_accepted_words hn (product32_toNat · n) hr,
    fun n hn _ hr => card_accepted_words hn (mul64_toNat · n) hr⟩

/-! ## The bounded commands end -/

/-- Some run of at most 2^64 steps ends the command. -/
def State.EndsWithinPeriod (s : State) : Prop := ∃ k ≤ 2 ^ 64, ∃ t, run k s = .next t ∧ t.BUSY = false

theorem State.EndsWithinPeriod.of_exec {i : Instr} {s t : State} (hrun : s.Running i)
    (h : exec i s = .next t) (hend : t.BUSY = false) : s.EndsWithinPeriod :=
  ⟨1, by decide, t, run_one (hrun.step_eq.trans h), hend⟩

/-- The greatest raw word is accepted for every bound. -/
theorem thresholdNat_le_lowPart_max {w n : Nat} (hn : 0 < n) (hlt : n < 2 ^ w) :
    thresholdNat w n ≤ lowPart w n (2 ^ w - 1) := by
  have hlow : lowPart w n (2 ^ w - 1) = 2 ^ w - n := by
    obtain ⟨m, rfl⟩ := Nat.exists_eq_succ_of_ne_zero hn.ne'
    have hsplit : (2 ^ w - 1) * (m + 1) = 2 ^ w - (m + 1) + m * 2 ^ w := by
      have := Nat.mul_le_mul_right m (Nat.one_le_two_pow (n := w))
      rw [Nat.sub_mul, Nat.mul_succ, one_mul, Nat.mul_comm m]
      omega
    rw [lowPart, hsplit, Nat.add_mul_mod_self_right, Nat.mod_eq_of_lt (by omega)]
  rw [hlow]
  exact Nat.mod_le _ _

/-- Of the raw words of one period some is the greatest, which is accepted, so there is a first accepted one. -/
theorem State.exists_first_accepted (s : State) {accepts : Word → Prop}
    (hmax : accepts (BitVec.allOnes 64)) :
    ∃ k < 2 ^ 64, accepts (s.rawWord k) ∧ ∀ j < k, ¬ accepts (s.rawWord j) := by
  classical
  obtain ⟨j, hj, hword⟩ := s.exists_rawWord_eq (BitVec.allOnes 64)
  have hex : ∃ k, accepts (s.rawWord k) := ⟨j, hword ▸ hmax⟩
  exact ⟨Nat.find hex, (Nat.find_min' hex (hword ▸ hmax)).trans_lt hj, Nat.find_spec hex,
    fun _ => Nat.find_min hex⟩

theorem endsWithinPeriod_of_bound32 {n : Half} {i : Instr} {s : State}
    (hi : i = .bound32 n ∨ (i = .int31n n ∧ 0 < n.toInt)) (hn : n ≠ 0#32) (hrun : s.Running i)
    (hpos : s.pos = .start) (hs : s.SEEDED = true) : s.EndsWithinPeriod := by
  obtain rfl | hone := eq_or_ne n 1#32
  · exact .of_exec hrun ((exec_eq_lemire32 hi hn hs).trans (lemire32_one s)) rfl
  obtain ⟨k, hk, haccepted, hrejected⟩ := s.exists_first_accepted
    (accepts := fun v => thresholdNat 32 n.toNat ≤ lowPart 32 n.toNat (v.toNat % 2 ^ 32))
    (thresholdNat_le_lowPart_max (toNat_pos_of_ne_zero hn) n.isLt)
  exact ⟨k + 1, hk, _, boundedRunReturnsFirstAcceptedWord.2.1 n i s k hi hrun hpos hs (by bv_omega)
    (fun j hj => not_le.1 (hrejected j hj)) haccepted, rfl⟩

theorem endsWithinPeriod_of_bound64 {n : Word} {i : Instr} {s : State}
    (hi : i = .bound64 n ∨ (i = .int63n n ∧ 0 < n.toInt)) (hn : n ≠ 0#64) (hrun : s.Running i)
    (hpos : s.pos = .start) (hs : s.SEEDED = true) : s.EndsWithinPeriod := by
  obtain rfl | hone := eq_or_ne n 1#64
  · exact .of_exec hrun ((exec_eq_lemire64 hi hn hs).trans (lemire64_one s)) rfl
  obtain ⟨k, hk, haccepted, hrejected⟩ := s.exists_first_accepted
    (accepts := fun v => thresholdNat 64 n.toNat ≤ lowPart 64 n.toNat v.toNat)
    (thresholdNat_le_lowPart_max (toNat_pos_of_ne_zero hn) n.isLt)
  exact ⟨k + 1, hk, _, boundedRunReturnsFirstAcceptedWord.2.2 n i s k hi hrun hpos hs (by bv_omega)
    (fun j hj => not_le.1 (hrejected j hj)) haccepted, rfl⟩

/-- A guarded draw ends at once where a guard refuses it, so it ends where the draw does. -/
theorem State.EndsWithinPeriod.of_guardedDraw {i : Instr} {s : State} {bad : Bool} {draw : State → Result}
    (hrun : s.Running i) (hexec : exec i s = guardedDraw bad draw s)
    (hdraw : bad = false → s.SEEDED = true → s.EndsWithinPeriod) : s.EndsWithinPeriod := by
  cases hs : s.SEEDED with
  | false => exact .of_exec hrun (hexec.trans (guardedDraw_of_unseeded hs _ _)) rfl
  | true =>
    cases hbad : bad with
    | true => exact .of_exec hrun (hexec.trans (guardedDraw_of_bad hs hbad _)) rfl
    | false => exact hdraw hbad hs

/-- Settles O33: a guard refuses at once, bound 1 draws nothing, and any other bound accepts some word of the
period. -/
theorem boundedCommandsNeverHang : Obligations.BoundedCommandsNeverHang := by
  intro i s hi hrun hpos
  change s.EndsWithinPeriod
  cases i with
  | bound32 n =>
    exact .of_guardedDraw hrun (exec_bound32 n s) fun hn =>
      endsWithinPeriod_of_bound32 (.inl rfl) (badUnsignedBound_eq_false.1 hn) hrun hpos
  | bound64 n =>
    exact .of_guardedDraw hrun (exec_bound64 n s) fun hn =>
      endsWithinPeriod_of_bound64 (.inl rfl) (badUnsignedBound_eq_false.1 hn) hrun hpos
  | int31n n =>
    exact .of_guardedDraw hrun (exec_int31n n s) fun hn =>
      endsWithinPeriod_of_bound32 (.inr ⟨rfl, badSignedBound_eq_false.1 hn⟩) (ne_zero_of_badSignedBound hn)
        hrun hpos
  | int63n n =>
    exact .of_guardedDraw hrun (exec_int63n n s) fun hn =>
      endsWithinPeriod_of_bound64 (.inr ⟨rfl, badSignedBound_eq_false.1 hn⟩) (ne_zero_of_badSignedBound hn)
        hrun hpos
  | seed | next64 | next32 | unif | rdbytes | exp | norm | marshal | unmarshal | imgrd | imgwr => cases hi

end Sys2Proof.Machine

/-! PROOFS. Family other, 42_ziggurat.md: `NORM` as written, where `EXP` and its tail come in, and which of the
two commands can hang. -/

namespace Sys2Proof.Machine

/-! ## One pass of `NORM` (R190, R193) -/

theorem normPass_of_start (P : ZigParams) {s : State} (h : s.pos = .start) :
    normPass P s = normIteration P s := by
  rw [normPass, h]

theorem normPass_of_tail (P : ZigParams) {s : State} {sign : Bool} (h : s.pos = .tail sign) :
    normPass P s = normTailPass P sign s := by
  rw [normPass, h]

/-- Settles O41: the guard of R234, then the exits of an iteration and of a tail pass in the order of the rules;
the threshold test is the one exit the model words otherwise. -/
theorem normIterationAndTailAsWritten : Obligations.NormIterationAndTailAsWritten := by
  refine ⟨rfl, fun s h => (exec_norm s).trans (whenSeeded_eq_notSeeded h _), ?_, ?_⟩
  · rintro s _ _ _ _ _ _ h hpos rfl rfl rfl rfl rfl rfl
    rw [exec_norm, whenSeeded_of_seeded h, normPass_of_start _ hpos, normIteration]
    simp only [fastAccept_eq_true]
    rfl
  · rintro s sign _ _ h hpos rfl rfl
    rw [exec_norm, whenSeeded_of_seeded h, normPass_of_tail _ hpos]
    rfl

/-! ## The tail of `EXP` (20_memory.md section 7) -/

/-- An iteration with `i = 0` that is not accepted fast ends in the tail. -/
theorem expPass_of_tail {P : ZigParams} {s : State} (hfast : fastAccept P.rom.ke s.drawn = false)
    (hzero : layerIndex s.drawn = 0#8) :
    expPass P s = s.afterDraw.afterDraw.finish .ok (fsub baseStripExp (P.ln64 (uOpen s.afterDraw.drawn))) := by
  simp [expPass, hfast, hzero]

/-- Settles O44: no `j` is below the threshold 0. -/
theorem indexZeroAlwaysTakesTheTail : Obligations.IndexZeroAlwaysTakesTheTail := by
  rintro P s ⟨-, hke⟩ hzero
  have hlayer : layerIndex s.drawn = 0#8 := hzero
  refine expPass_of_tail ?_ hlayer
  rw [← Bool.not_eq_true, fastAccept_eq_true, hlayer, hke]
  exact Nat.not_lt_zero _

/-- A logarithm of `-2^-100` everywhere, which LN_NEG allows. -/
def tinyLogarithm : Word → Word := fun _ => 0xB9B0000000000000#64

theorem tinyLogarithm_lnNeg : LnNeg tinyLogarithm := fun _ _ _ =>
  ⟨(by decide : isFinite 0xB9B0000000000000#64 = true),
    (by decide : flt 0xB9B0000000000000#64 (zero false) = true)⟩

/-- Refutes O47: the rounded difference of `RE` and `-2^-100` is `RE` itself. -/
theorem not_expTailStrictlyAboveBaseStrip : ¬ Obligations.ExpTailStrictlyAboveBaseStrip := by
  intro h
  have habsorbed : fsub baseStripExp (tinyLogarithm (uOpen 0#64)) = baseStripExp :=
    (by decide : fsub baseStripExp 0xB9B0000000000000#64 = baseStripExp)
  have hlt := h tinyLogarithm 0#64 tinyLogarithm_lnNeg
  rw [habsorbed] at hlt
  exact absurd hlt (by decide)

/-! ## `EXP` ends (section 5) -/

/-- The increment is odd, so each advance changes the parity. -/
theorem iterate_advance_mod_two (j : Nat) (x : Word) : (advance^[j] x).toNat % 2 = (x.toNat + j) % 2 := by
  induction j with
  | zero => rfl
  | succ j ih =>
    rw [Function.iterate_succ_apply', advance_toNat]
    omega

/-- From every state some raw word at an even place has a zero low byte: both parities of the generator state
have a word that the output function takes to one. -/
theorem State.exists_zero_layer (s : State) : ∃ k, layerIndex (s.rawWord (2 * k)) = 0#8 := by
  have zeroLayer (z : Word) (hz : layerIndex (mix z) = 0#8) (hparity : z.toNat % 2 ≠ s.S.toNat % 2) :
      ∃ k, layerIndex (s.rawWord (2 * k)) = 0#8 := by
    obtain ⟨j, -, hj⟩ := exists_iterate_advance s.S z
    have hmod := iterate_advance_mod_two j s.S
    rw [hj] at hmod
    have hodd : 2 * (j / 2) + 1 = j := by omega
    exact ⟨j / 2, by rw [State.rawWord, hodd, hj, hz]⟩
  obtain heven | hodd := Nat.mod_two_eq_zero_or_one s.S.toNat
  · exact zeroLayer 143#64 (by decide) (by rw [heven]; decide)
  · exact zeroLayer 0#64 (by decide) (by rw [hodd]; decide)

theorem State.Running.step_exp {s : State} (h : s.Running .exp) (hs : s.SEEDED = true) :
    step s = .next (expPass Config.zig s) :=
  h.step_eq.trans ((exec_exp s).trans (whenSeeded_of_seeded hs _))

/-- `EXP` ends by the iteration that draws a zero low byte: one before it ends, or draws two words and goes on
at the head. -/
theorem exp_ends_of_zero_layer (k : Nat) {s : State} (hrun : s.Running .exp) (hs : s.SEEDED = true)
    (hzero : layerIndex (s.rawWord (2 * k)) = 0#8) : ∃ m t, run m s = .next t ∧ t.BUSY = false := by
  have hstep := hrun.step_exp hs
  induction k generalizing s with
  | zero =>
    refine ⟨1, _, run_one hstep, ?_⟩
    cases hfast : fastAccept Config.zig.rom.ke s.drawn with
    | true => rw [expPass, if_pos hfast]; rfl
    | false => rw [expPass_of_tail hfast hzero]; rfl
  | succ k ih =>
    obtain ⟨x, h⟩ | ⟨x, h⟩ | h := expPass_cases Config.zig s
    · exact ⟨1, _, run_one hstep, by rw [h]; rfl⟩
    · exact ⟨1, _, run_one hstep, by rw [h]; rfl⟩
    · have hretry : s.afterDraw.afterDraw.retry.Running .exp := hrun
      obtain ⟨m, t, hm, hend⟩ := ih hretry hs hzero (hretry.step_exp hs)
      exact ⟨m + 1, t, by rw [run_succ hstep, h, hm], hend⟩

/-- Settles O42: an unseeded block refuses at once; in a seeded one some iteration word has a zero low byte. -/
theorem expNeverHangs : Obligations.ExpNeverHangs := by
  intro s hrun
  cases hs : s.SEEDED with
  | false =>
    have hstep := hrun.step_eq.trans ((exec_exp s).trans (whenSeeded_eq_notSeeded hs _))
    exact ⟨1, _, run_one hstep, rfl⟩
  | true =>
    obtain ⟨k, hk⟩ := s.exists_zero_layer
    exact exp_ends_of_zero_layer k hrun hs hk

/-! ## The tail of `NORM` can hang (70_reset_and_hazards.md section 4) -/

/-- Parameters whose logarithm is a NaN everywhere. -/
def nanLogarithm : ZigParams where
  rom := { ke := fun _ => 0#64, we := fun _ => 0#64, fe := fun _ => 0#64, kn := fun _ => 0#64,
           wn := fun _ => 0#64, fn := fun _ => 0#64, rn := one }
  exp64 := id
  ln64 := fun _ => quietNaN

/-- Comparisons with a NaN are false, so every tail pass is rejected. -/
theorem normTailPass_nanLogarithm (sign : Bool) (s : State) :
    normTailPass nanLogarithm sign s = s.afterDraw.afterDraw :=
  if_neg (by decide : ¬ fge (fadd (fneg quietNaN) (fneg quietNaN))
    (fmul (fdiv (fneg quietNaN) one) (fdiv (fneg quietNaN) one)) = true)

theorem iterate_normTailPass_nanLogarithm (sign : Bool) (k : Nat) (s : State) :
    (normTailPass nanLogarithm sign)^[k] s = { s with S := advance^[2 * k] s.S } := by
  induction k generalizing s with
  | zero => rfl
  | succ k ih => rw [Function.iterate_succ_apply, normTailPass_nanLogarithm, ih]; rfl

/-- Settles O43: a logarithm that is a NaN everywhere. -/
theorem normTailCanHang : Obligations.NormTailCanHang := by
  refine ⟨nanLogarithm, fun sign s k hbusy => ?_⟩
  rw [iterate_normTailPass_nanLogarithm]
  exact ⟨hbusy, rfl, rfl⟩

end Sys2Proof.Machine

/-! PROOFS. Family other, 43_statecodec.md and 30_encoding.md section 7: the command sequences that write a state
image and load it, and the assembler. -/

namespace Sys2Proof.Machine

/-! ## The commands that write a word (R103) -/

/-- The commands that write the `n` low bytes of `x` from address `a` on, as `MemWrite` does. -/
def writeCommands (a : Nat) : Nat → Nat → List Instr
  | 0, _ => []
  | n + 1, x => .imgwr (BitVec.ofNat 4 a) (BitVec.ofNat 8 x) :: writeCommands (a + 1) n (x / 256)

theorem map_imgwr_eq_writeCommands (a n x : Nat) :
    ((List.range n).map fun k => Instr.imgwr (BitVec.ofNat 4 (a + k)) (BitVec.ofNat 8 (x / 256 ^ k))) =
      writeCommands a n x := by
  induction n generalizing a x with
  | zero => rfl
  | succ n ih =>
    have shift (k : Nat) : x / 256 / 256 ^ k = x / 256 ^ (k + 1) := by
      rw [Nat.div_div_eq_div_mul, ← pow_succ']
    rw [writeCommands, ← ih, List.range_succ_eq_map, List.map_cons, List.map_map, pow_zero, Nat.div_one,
      Nat.add_zero]
    simp only [Function.comp_def, shift, Nat.add_right_comm a 1, ← Nat.add_assoc, Nat.succ_eq_add_one]

/-- `IMGWR64` writes its word by the bytes of its number. -/
theorem pseudoImgwr64_eq (a : Nat) (v : Word) : pseudoImgwr64 a v = writeCommands a 8 v.toNat := by
  rw [← map_imgwr_eq_writeCommands, pseudoImgwr64]
  simp only [byteOf_eq_ofNat_div]

/-- `LOADSTATE v` writes the image of `v` and loads it (R210). -/
theorem pseudoLoadstate_eq (v : Word) : pseudoLoadstate v =
    writeCommands 0 8 imageTag.toNat ++ (writeCommands 8 8 v.toNat ++ [Instr.unmarshal imageLength]) := by
  rw [pseudoLoadstate, pseudoImgwr64_eq, pseudoImgwr64_eq, List.append_assoc]

theorem exec_imgwr_ofNat {a : Nat} (ha : a < 16) (b : Byte) (s : State) :
    ∃ t, exec (.imgwr (BitVec.ofNat 4 a) b) s = .next t ∧ t.BUSY = false ∧ t.events = s.events ∧
      t.IMG = setByte s.IMG a b := by
  refine ⟨{ s with IMG := setByte s.IMG a b }.finish .ok 0#64, ?_, rfl, rfl, rfl⟩
  rw [exec_imgwr, BitVec.toNat_ofNat, Nat.mod_eq_of_lt ha]
  rfl

/-- The load of an image gives back the word it was made of. -/
theorem exec_unmarshal_writeImage {m : Memory} (hm : m.wf = true) {s : State} {v : Word}
    (himage : s.IMG = writeImage m v) : ∃ t, exec (.unmarshal imageLength) s = .next t ∧ t.BUSY = false ∧
      t.events = s.events ∧ statusField t.RSP = 0#4 ∧ t.S = v ∧ t.SEEDED = true ∧ t.RDPOS = 0#4 := by
  have htag : ∀ k < 8, byteAt s.IMG k = byteOf imageTag k := fun k hk => by
    rw [himage, byteAt_writeImage hm, if_pos hk]
  have hword : BitVec.ofNat 64 (memRead s.IMG 8 8) = v := eq_of_byteOf_eq fun k hk => by
    rw [byteOf_ofNat_memRead _ _ hk, himage, byteAt_writeImage hm, if_neg (by omega), if_pos (by omega),
      Nat.add_sub_cancel_left]
  refine ⟨(s.load v).finish .ok 0#64, ?_, rfl, rfl, statusField_mkResponse .ok 0#64, rfl, rfl, rfl⟩
  rw [exec_unmarshal_of_good_tag htag, hword, done]

/-! ## The round-trip law (section 3) -/

/-- The write commands, taken pass by pass, change the image as one `MemWrite`. -/
theorem runAll_writeCommands {a n : Nat} (h : a + n ≤ 16) (x : Nat) (is : List Instr) (s : State) :
    ∃ t, runAll (writeCommands a n x ++ is) s = runAll is t ∧ t.IMG = memWrite s.IMG a n x := by
  induction n generalizing a x s with
  | zero => exact ⟨s, rfl, rfl⟩
  | succ n ih =>
    obtain ⟨u, hu, -, -, hbyte⟩ := exec_imgwr_ofNat (a := a) (by omega) (BitVec.ofNat 8 x) s
    obtain ⟨t, hrun, himage⟩ := ih (a := a + 1) (by omega) (x / 256) u
    exact ⟨t, by rw [writeCommands, List.cons_append, runAll, hu, ← hrun], by rw [himage, hbyte, memWrite]⟩

/-- `LOADSTATE v`, taken pass by pass, loads `v`. -/
theorem runAll_pseudoLoadstate (v : Word) {s : State} (hwf : s.IMG.wf = true) :
    ∃ t, runAll (pseudoLoadstate v) s = some t ∧ statusField t.RSP = 0#4 ∧ t.S = v ∧ t.SEEDED = true ∧
      t.RDPOS = 0#4 := by
  rw [pseudoLoadstate_eq]
  obtain ⟨u, hu, hutag⟩ := runAll_writeCommands (a := 0) (n := 8) (by decide) imageTag.toNat
    (writeCommands 8 8 v.toNat ++ [Instr.unmarshal imageLength]) s
  obtain ⟨t, ht, htword⟩ := runAll_writeCommands (a := 8) (n := 8) (by decide) v.toNat
    [Instr.unmarshal imageLength] u
  obtain ⟨b, hb, -, -, hloaded⟩ := exec_unmarshal_writeImage hwf (s := t) (v := v)
    (by rw [htword, hutag, writeImage])
  exact ⟨b, by rw [hu, ht, runAll, hb]; rfl, hloaded⟩

/-- The byte `IMGRD` gives out, as the host takes it out of the response. -/
theorem imageBytes_eq (s : State) : imageBytes s = (List.range 16).map (byteAt s.IMG) := by
  refine List.map_congr_left fun k hk => ?_
  have hk : k % 2 ^ 4 = k := Nat.mod_eq_of_lt (List.mem_range.1 hk)
  have hlow (b : Byte) : (b.setWidth 64).extractLsb' 0 8 = b := by
    apply BitVec.eq_of_toNat_eq
    have := b.isLt
    simp
    omega
  rw [exec_imgrd, done]
  simp only [State.finish_RSP, dataField_mkResponse, hlow, BitVec.toNat_ofNat, hk]

theorem mapIdx_map_range {α β : Type} (f : Nat → α) (g : Nat → α → β) (n : Nat) :
    ((List.range n).map f).mapIdx g = (List.range n).map fun k => g k (f k) :=
  List.ext_getElem (by simp) (by simp)

/-- The host's `unmarshal` of the bytes of an image of `v` is `LOADSTATE v`. -/
theorem unmarshalSequence_image {f : Nat → Byte} {v : Word} (htag : ∀ k < 8, f k = byteOf imageTag k)
    (hword : ∀ k < 8, f (8 + k) = byteOf v k) :
    unmarshalSequence ((List.range 16).map f) imageLength = pseudoLoadstate v := by
  have hlow : (List.range 8).map (fun k => Instr.imgwr (BitVec.ofNat 4 k) (f k)) = pseudoImgwr64 0 imageTag :=
    List.map_congr_left fun k hk => by rw [htag k (List.mem_range.1 hk), Nat.zero_add]
  have hhigh : (List.range 8).map (fun k => Instr.imgwr (BitVec.ofNat 4 (8 + k)) (f (8 + k))) =
      pseudoImgwr64 8 v :=
    List.map_congr_left fun k hk => by rw [hword k (List.mem_range.1 hk)]
  rw [unmarshalSequence, mapIdx_map_range, List.range_add (n := 8) (m := 8), List.map_append, List.map_map,
    hlow, pseudoLoadstate, ← hhigh]
  rfl

/-- Settles O53: the host reads the image of A's word and issues `LOADSTATE` of it to B. -/
theorem roundTripLaw : Obligations.RoundTripLaw := by
  intro A A' B hA hAwf hBwf hmarshal
  have hA' : A' = { A with IMG := writeImage A.IMG A.S }.finish .ok imageLength :=
    (Host.Outcome.next.inj (((exec_marshal A).trans (whenSeeded_of_seeded hA _)).symm.trans hmarshal)).symm
  have himage : A'.IMG = writeImage A.IMG A.S := by rw [hA', State.finish_IMG]
  have hload : unmarshalSequence (imageBytes A') imageLength = pseudoLoadstate A.S := by
    rw [imageBytes_eq, himage]
    refine unmarshalSequence_image (fun k hk => ?_) fun k hk => ?_
    · rw [byteAt_writeImage hAwf, if_pos hk]
    · rw [byteAt_writeImage hAwf, if_neg (by omega), if_pos (by omega), Nat.add_sub_cancel_left]
  obtain ⟨t, ht, hstatus, hS, hseeded, hpos⟩ := runAll_pseudoLoadstate A.S hBwf
  exact ⟨t, (congrArg (runAll · B) hload).trans ht, hstatus, hS, hseeded, hpos, fun k => by
    rw [State.rawWord, hS, State.rawWord]⟩

/-! ## `LOADSTATE` on the machine (R267, R268) -/

/-- An idle block takes a command that ends in one pass in two steps: the acceptance and the pass. -/
theorem run_command {s t : State} {i : Instr} {rest : List Event} (hidle : s.BUSY = false)
    (hev : s.events = .command (encode i) :: rest) (hwf : i.wellFormed = true)
    (hheld : ∀ e ∈ rest, e.isHeld = true) (hexec : exec i (s.accept (encode i) rest) = .next t) (k : Nat) :
    run (2 + k) s = run k t := by
  have hpass : step (s.accept (encode i) rest) = .next t := by
    have hdec : decode (s.accept (encode i) rest).latch = .command i := decode_encode hwf
    rw [step_of_isHeld (s.accept_BUSY _ _) fun e he => hheld e (List.mem_of_mem_head? he),
      sequencerStep_of_command hdec, hexec]
  rw [Nat.add_comm, run_succ (step_of_offered hidle hev), run_succ hpass]

/-- The commands offered in a row. -/
def offers (is : List Instr) : List Event := is.map fun i => .command (encode i)

/-- Commands offered in a row are held while the block is busy. -/
theorem offers_isHeld (is : List Instr) {rest : List Event} (h : ∀ e ∈ rest, e.isHeld = true) :
    ∀ e ∈ offers is ++ rest, e.isHeld = true := by
  intro e he
  obtain he | he := List.mem_append.1 he
  · obtain ⟨i, -, rfl⟩ := List.mem_map.1 he
    rfl
  · exact h e he

/-- The write commands, issued to an idle block, change the image as one `MemWrite`, two steps each. -/
theorem run_writeCommands {a n : Nat} (h : a + n ≤ 16) {x : Nat} {s : State} {rest : List Event}
    (hidle : s.BUSY = false) (hheld : ∀ e ∈ rest, e.isHeld = true)
    (hev : s.events = offers (writeCommands a n x) ++ rest) :
    ∃ t, (∀ k, run (2 * n + k) s = run k t) ∧ t.BUSY = false ∧ t.events = rest ∧
      t.IMG = memWrite s.IMG a n x := by
  induction n generalizing a x s with
  | zero => exact ⟨s, fun k => by rw [Nat.mul_zero, Nat.zero_add], hidle, hev, rfl⟩
  | succ n ih =>
    obtain ⟨u, hu, huidle, huev, hbyte⟩ := exec_imgwr_ofNat (a := a) (by omega) (BitVec.ofNat 8 x) (s.accept _ _)
    have hhead := run_command hidle hev rfl (offers_isHeld _ hheld) hu
    obtain ⟨t, hrun, htidle, htev, himage⟩ := ih (a := a + 1) (by omega) huidle huev
    refine ⟨t, fun k => ?_, htidle, htev, himage.trans (by rw [hbyte, memWrite]; rfl)⟩
    rw [← hrun, ← hhead]
    congr 1
    ring

/-- Settles O54: sixteen writes, the load, and the step of the host that waits. -/
theorem loadstateLoadsAnyWord : Obligations.LoadstateLoadsAnyWord := by
  intro v s hidle hwf hev
  have hevents : s.events = offers (writeCommands 0 8 imageTag.toNat) ++
      (offers (writeCommands 8 8 v.toNat) ++ [.command (encode (.unmarshal imageLength)), .waitIdle]) := by
    rw [hev, issue, pseudoLoadstate_eq, List.map_append, List.map_append, List.append_assoc, List.append_assoc]
    rfl
  have hload : ∀ e ∈ [Event.command (encode (.unmarshal imageLength)), .waitIdle], e.isHeld = true := by
    simp [Event.isHeld]
  obtain ⟨u, hu, huidle, huev, hutag⟩ := run_writeCommands (by decide) hidle
    (offers_isHeld _ hload) hevents
  obtain ⟨t, ht, htidle, htev, htword⟩ := run_writeCommands (by decide) huidle hload huev
  obtain ⟨b, hb, hbidle, hbev, hloaded⟩ := exec_unmarshal_writeImage hwf
    (s := t.accept (encode (.unmarshal imageLength)) [.waitIdle]) (by rw [State.accept_IMG, htword, hutag]; rfl)
  have hwait : step b = .next { b with events := [] } := step_of_idle_host hbidle hbev (.inr (.inl rfl))
  have hrun : run 35 s = .next { b with events := [] } :=
    calc run 35 s = run 19 u := hu 19
      _ = run 3 t := ht 3
      _ = run 1 b := run_command htidle htev rfl (by simp [Event.isHeld]) hb 1
      _ = .next { b with events := [] } := run_one hwait
  exact ⟨{ b with events := [] }, hrun, rfl, hbidle, hloaded⟩

/-! ## The assembler emits legal commands (R100) -/

/-- Where the assembler answers with commands, each of them has a legal word. -/
def EmitsLegal (r : Except AsmError (List Instr)) : Prop :=
  ∀ is, r = .ok is → ∀ i ∈ is, i.wellFormed = true

namespace EmitsLegal

theorem ok {is : List Instr} (h : ∀ i ∈ is, i.wellFormed = true) : EmitsLegal (.ok is) := by
  rintro _ ⟨⟩
  exact h

theorem error (e : AsmError) : EmitsLegal (.error e) := nofun

theorem of_ite {c : Prop} {_ : Decidable c} {r r' : Except AsmError (List Instr)} (h : EmitsLegal r)
    (h' : EmitsLegal r') : EmitsLegal (if c then r else r') := by
  split
  exacts [h, h']

theorem of_assembleNone {i : Instr} (hi : i.wellFormed = true) (ts : List (List Char)) :
    EmitsLegal (assembleNone i ts) := by
  cases ts with
  | nil => exact ok (by simpa using hi)
  | cons t ts => exact error _

theorem of_assembleOne {w : Nat} {read : List Char → Except AsmError (BitVec w)} {f : BitVec w → List Instr}
    (hf : ∀ n, ∀ i ∈ f n, i.wellFormed = true) (ts : List (List Char)) :
    EmitsLegal (assembleOne read f ts) := by
  match ts with
  | [] | _ :: _ :: _ => exact error _
  | [t] =>
    rw [assembleOne]
    cases read t with
    | error e => exact error e
    | ok n => exact ok (hf n)

/-- The check of R100 on a count is the check of the decoder. -/
theorem of_assembleCount (ts : List (List Char)) : EmitsLegal (assembleCount ts) := by
  unfold assembleCount
  split
  · split
    · exact error _
    · split
      next c hc => exact ok (by simpa [Instr.wellFormed] using hc)
      · exact error _
  · exact error _

theorem pseudoImgwr64_wellFormed (a : Nat) (v : Word) : ∀ i ∈ pseudoImgwr64 a v, i.wellFormed = true := by
  intro i hi
  obtain ⟨k, -, rfl⟩ := List.mem_map.1 hi
  rfl

theorem of_assembleImgwr (ts : List (List Char)) : EmitsLegal (assembleImgwr ts) := by
  unfold assembleImgwr
  split
  · split
    · exact ok (by simp [Instr.wellFormed])
    · exact error _
    · exact error _
  · exact error _

theorem of_assembleImgwr64 (ts : List (List Char)) : EmitsLegal (assembleImgwr64 ts) := by
  unfold assembleImgwr64
  split
  · split
    · exact of_ite (ok (pseudoImgwr64_wellFormed _ _)) (error _)
    · exact error _
    · exact error _
  · exact error _

theorem pseudoLoadstate_wellFormed (v : Word) : ∀ i ∈ pseudoLoadstate v, i.wellFormed = true := by
  intro i hi
  rw [pseudoLoadstate, List.mem_append, List.mem_append, List.mem_singleton] at hi
  obtain (hi | hi) | rfl := hi
  · exact pseudoImgwr64_wellFormed _ _ i hi
  · exact pseudoImgwr64_wellFormed _ _ i hi
  · rfl

/-- Of the mnemonics `RDBYTES` alone has a command without a legal word. -/
theorem of_assembleMnemonic (m : List Char) (ts : List (List Char)) : EmitsLegal (assembleMnemonic m ts) := by
  have single {w : Nat} (read : List Char → Except AsmError (BitVec w)) {f : BitVec w → Instr}
      (hf : ∀ n, (f n).wellFormed = true) : EmitsLegal (assembleOne read (fun n => [f n]) ts) :=
    of_assembleOne (fun n => by simpa using hf n) ts
  have none {i : Instr} (hi : i.wellFormed = true) := of_assembleNone hi ts
  unfold assembleMnemonic
  exact of_ite (single _ fun _ => rfl) <| of_ite (none rfl) <| of_ite (none rfl) <| of_ite (none rfl) <|
    of_ite (of_assembleCount ts) <| of_ite (single _ fun _ => rfl) <| of_ite (single _ fun _ => rfl) <|
    of_ite (single _ fun _ => rfl) <| of_ite (single _ fun _ => rfl) <| of_ite (none rfl) <|
    of_ite (none rfl) <| of_ite (none rfl) <| of_ite (single _ fun _ => rfl) <|
    of_ite (single _ fun _ => rfl) <| of_ite (of_assembleImgwr ts) <| of_ite (single _ fun _ => rfl) <|
    of_ite (of_assembleImgwr64 ts) <| of_ite (of_assembleOne pseudoLoadstate_wellFormed ts) (error _)

theorem of_assembleLine (l : List Char) : EmitsLegal (assembleLine l) :=
  of_ite (ok (by simp)) (of_assembleMnemonic _ _)

theorem of_assembleLines (ls : List (List Char)) : EmitsLegal (assembleLines ls) := by
  induction ls with
  | nil => exact ok (by simp)
  | cons l ls ih =>
    have hl := of_assembleLine l
    unfold assembleLines
    split
    · exact error _
    next is his =>
      split
      · exact error _
      next js hjs => exact ok (List.forall_mem_append.2 ⟨hl is his, ih js hjs⟩)

end EmitsLegal

/-- Settles O55: line by line, and in a line by the mnemonic. -/
theorem assemblerEmitsLegalCommands : Obligations.AssemblerEmitsLegalCommands := fun text =>
  EmitsLegal.of_assembleLines (cutAt '\n' text)

end Sys2Proof.Machine

/-! PROOFS. Family other, 42_ziggurat.md section 1: the four floating-point operations as exact results rounded
once, their invalid cases, and what follows for the samplers. -/

namespace Sys2Proof.Machine

/-! ## Patterns -/

theorem fneg_eq (a : Word) : fneg a = withSign (!a.msb) (a.extractLsb' 0 63) := by
  apply BitVec.eq_of_getLsbD_eq
  intro k hk
  rw [getLsbD_fneg, withSign, BitVec.getLsbD_append]
  obtain rfl | hne := eq_or_ne k 63
  · simp [BitVec.msb_eq_getLsbD_last]
  · have hlt : k < 63 := by omega
    simp [hne, hlt]

@[simp] theorem magnitude_fneg (a : Word) : magnitude (fneg a) = magnitude a := by
  rw [fneg_eq, magnitude_withSign, magnitude]

@[simp] theorem msb_fneg (a : Word) : (fneg a).msb = !a.msb := by
  rw [fneg_eq, msb_withSign]

theorem value_fneg (a : Word) : value (fneg a) = -value a := by
  rw [value_eq_magnitudeValue, value_eq_magnitudeValue, magnitude_fneg, msb_fneg]
  cases a.msb <;> simp

theorem isFinite_fneg (a : Word) : isFinite (fneg a) = isFinite a :=
  Bool.eq_iff_iff.2 (by rw [isFinite_iff, isFinite_iff, magnitude_fneg])

theorem isNaN_fneg (a : Word) : isNaN (fneg a) = isNaN a := by
  rw [isNaN, isNaN, exponentField_eq_magnitude_div, fractionField_eq_magnitude_mod, magnitude_fneg,
    ← exponentField_eq_magnitude_div, ← fractionField_eq_magnitude_mod]

/-- The lowest bit of a pattern is the parity of its magnitude. -/
theorem getLsbD_zero_eq_false_iff {a : Word} : a.getLsbD 0 = false ↔ magnitude a % 2 = 0 := by
  have hparity : magnitude a % 2 = a.toNat % 2 := by
    rw [magnitude, BitVec.extractLsb'_toNat, Nat.shiftRight_zero]
    omega
  rw [hparity, BitVec.getLsbD, Nat.testBit_zero, decide_eq_false_iff_not]
  omega

/-- What the sign bit multiplies a value by. -/
def signFactor (neg : Bool) : ℚ := if neg then -1 else 1

theorem abs_signFactor_mul (neg : Bool) (x : ℚ) : |signFactor neg * x| = |x| := by
  cases neg <;> simp [signFactor]

theorem abs_value (a : Word) : |value a| = magnitudeValue (magnitude a) := by
  have hnonneg : 0 ≤ magnitudeValue (magnitude a) :=
    magnitudeValue_zero.symm.le.trans (magnitudeValue_strictMono.monotone (Nat.zero_le _))
  rw [value_eq_magnitudeValue]
  exact (abs_signFactor_mul a.msb _).trans (abs_of_nonneg hnonneg)

/-- A finite pattern unpacks to its exact value (R170). -/
theorem unpack_of_isFinite {a : Word} (h : isFinite a = true) :
    ∃ m e, unpack a = .finite a.msb m e ∧ value a = signFactor a.msb * (m * (2 : ℚ) ^ e) := by
  have hexp : exponentField a ≠ 0x7FF := bne_iff_ne.1 h
  by_cases hzero : exponentField a = 0
  · refine ⟨fractionField a, -1074, by rw [unpack, if_neg hexp, if_pos hzero], ?_⟩
    rw [value, if_pos hzero, signFactor]
  · refine ⟨2 ^ 52 + fractionField a, exponentField a - 1075, by rw [unpack, if_neg hexp, if_neg hzero], ?_⟩
    rw [value, if_neg hzero, signFactor]
    push_cast
    rfl

theorem unpack_of_isNaN {a : Word} (h : isNaN a = true) : unpack a = .nan := by
  rw [isNaN, Bool.and_eq_true, beq_iff_eq, bne_iff_ne] at h
  rw [unpack, if_pos h.1, if_neg h.2]

theorem unpack_zero (neg : Bool) : unpack (zero neg) = .finite neg 0 (-1074) := by
  cases neg <;> decide

/-! ## Invalid operations (R170) -/

theorem fadd_of_isNaN {a b : Word} (h : isNaN a = true ∨ isNaN b = true) : fadd a b = quietNaN := by
  obtain h | h := h
  · rw [fadd, unpack_of_isNaN h]
  · rw [fadd, unpack_of_isNaN h]; cases unpack a <;> rfl

theorem fmul_of_isNaN {a b : Word} (h : isNaN a = true ∨ isNaN b = true) : fmul a b = quietNaN := by
  obtain h | h := h
  · rw [fmul, unpack_of_isNaN h]
  · rw [fmul, unpack_of_isNaN h]; cases unpack a <;> rfl

theorem fdiv_of_isNaN {a b : Word} (h : isNaN a = true ∨ isNaN b = true) : fdiv a b = quietNaN := by
  obtain h | h := h
  · rw [fdiv, unpack_of_isNaN h]
  · rw [fdiv, unpack_of_isNaN h]; cases unpack a <;> rfl

/-- Settles O36: NaN operands by unpacking, the other operands one by one, a number that is not zero by its
significand. -/
theorem invalidOperationsGiveQuietNaN : Obligations.InvalidOperationsGiveQuietNaN := by
  refine ⟨fun a b h => ⟨fadd_of_isNaN h, fadd_of_isNaN (by rwa [isNaN_fneg]), fmul_of_isNaN h, fdiv_of_isNaN h⟩,
    by decide, by decide, fun a t ha hne => ?_⟩
  obtain ⟨m, e, hunpack, hvalue⟩ := unpack_of_isFinite ha
  have hm : m ≠ 0 := by
    rintro rfl
    exact hne (by rw [hvalue, Nat.cast_zero, zero_mul, mul_zero])
  simp [fdiv, hunpack, unpack_zero, hm]

/-! ## Nearest magnitudes -/

/-- Of all magnitudes `M` has the value nearest to `x`, and where another is as near `M` is even. -/
def NearestMagnitude (x : ℚ) (M : Nat) : Prop :=
  ∀ c, |magnitudeValue M - x| ≤ |magnitudeValue c - x| ∧
    (|magnitudeValue c - x| = |magnitudeValue M - x| → c ≠ M → M % 2 = 0)

/-- Between two neighbours the one at most half their distance away is nearest. -/
theorem nearestMagnitude_of_neighbours {x : ℚ} {lo M : Nat} (hlo : magnitudeValue lo ≤ x)
    (hhi : x ≤ magnitudeValue (lo + 1)) (hM : M = lo ∨ M = lo + 1)
    (hhalf : 2 * |magnitudeValue M - x| ≤ magnitudeValue (lo + 1) - magnitudeValue lo)
    (hties : 2 * |magnitudeValue M - x| = magnitudeValue (lo + 1) - magnitudeValue lo → M % 2 = 0) :
    NearestMagnitude x M := by
  have hmono := magnitudeValue_strictMono
  intro c
  obtain hc | hc : c ≤ lo ∨ lo + 1 ≤ c := by omega
  · have hcl := hmono.monotone hc
    rw [abs_of_nonpos (by linarith : magnitudeValue c - x ≤ 0)]
    obtain rfl | rfl := hM
    · rw [abs_of_nonpos (by linarith)]
      refine ⟨by linarith, fun heq hne => absurd (hmono (lt_of_le_of_ne hc hne)) ?_⟩
      linarith
    · rw [abs_of_nonneg (by linarith)] at *
      exact ⟨by linarith, fun heq _ => hties (by linarith)⟩
  · have hcl := hmono.monotone hc
    rw [abs_of_nonneg (by linarith : 0 ≤ magnitudeValue c - x)]
    obtain rfl | rfl := hM
    · rw [abs_of_nonpos (by linarith)] at *
      exact ⟨by linarith, fun heq _ => hties (by linarith)⟩
    · rw [abs_of_nonneg (by linarith)]
      refine ⟨by linarith, fun heq hne => absurd (hmono (lt_of_le_of_ne hc hne.symm)) ?_⟩
      linarith

/-! ## The rounding (R170) -/

/-- A power of two with an exponent of either sign, over the naturals. -/
theorem two_zpow_eq_div (k : ℤ) : (2 : ℚ) ^ k = 2 ^ k.toNat / 2 ^ (-k).toNat := by
  rw [← zpow_natCast, ← zpow_natCast, ← zpow_sub₀ two_ne_zero]
  congr 1
  omega

/-- What `floorLog2` compares is `2^k` with `n / d`. -/
theorem mul_two_pow_le_iff {n d : Nat} (hd : 0 < d) (k : ℤ) :
    d * 2 ^ k.toNat ≤ n * 2 ^ (-k).toNat ↔ (2 : ℚ) ^ k ≤ n / d := by
  rw [two_zpow_eq_div, div_le_div_iff₀ (by positivity) (by exact_mod_cast hd), mul_comm d]
  exact_mod_cast Iff.rfl

theorem log2_bounds {n : Nat} (hn : 0 < n) :
    (2 : ℚ) ^ (n.log2 : ℤ) ≤ n ∧ (n : ℚ) < 2 ^ (n.log2 + 1 : ℤ) := by
  constructor
  · exact_mod_cast Nat.log2_self_le hn.ne'
  · exact_mod_cast Nat.lt_log2_self

/-- The exponent of a quotient lies at the difference of the exponents or just below it. -/
theorem floorLog2_bounds {n d : Nat} (hn : 0 < n) (hd : 0 < d) :
    (2 : ℚ) ^ floorLog2 n d ≤ n / d ∧ (n / d : ℚ) < 2 ^ (floorLog2 n d + 1) := by
  obtain ⟨hnlo, hnhi⟩ := log2_bounds hn
  obtain ⟨hdlo, hdhi⟩ := log2_bounds hd
  have hdpos : (0 : ℚ) < d := by exact_mod_cast hd
  have hlower : (2 : ℚ) ^ ((n.log2 : ℤ) - d.log2 - 1) ≤ n / d := by
    rw [le_div_iff₀ hdpos]
    calc (2 : ℚ) ^ ((n.log2 : ℤ) - d.log2 - 1) * d
        ≤ 2 ^ ((n.log2 : ℤ) - d.log2 - 1) * 2 ^ (d.log2 + 1 : ℤ) := by gcongr
      _ = 2 ^ (n.log2 : ℤ) := by rw [← zpow_add₀ two_ne_zero]; congr 1; ring
      _ ≤ n := hnlo
  have hupper : (n / d : ℚ) < 2 ^ ((n.log2 : ℤ) - d.log2 + 1) := by
    rw [div_lt_iff₀ hdpos]
    calc (n : ℚ) < 2 ^ (n.log2 + 1 : ℤ) := hnhi
      _ = 2 ^ ((n.log2 : ℤ) - d.log2 + 1) * 2 ^ (d.log2 : ℤ) := by
          rw [← zpow_add₀ two_ne_zero]; congr 1; ring
      _ ≤ 2 ^ ((n.log2 : ℤ) - d.log2 + 1) * d := by gcongr
  by_cases h : (2 : ℚ) ^ ((n.log2 : ℤ) - d.log2) ≤ n / d
  · have hk : floorLog2 n d = (n.log2 : ℤ) - d.log2 := if_pos ((mul_two_pow_le_iff hd _).2 h)
    rw [hk]
    exact ⟨h, hupper⟩
  · have hk : floorLog2 n d = (n.log2 : ℤ) - d.log2 - 1 := if_neg (mt (mul_two_pow_le_iff hd _).1 h)
    rw [hk, sub_add_cancel]
    exact ⟨hlower, not_le.1 h⟩

theorem divNearestEven_eq (N D : Nat) : divNearestEven N D =
    if 2 * (N % D) > D ∨ (2 * (N % D) = D ∧ N / D % 2 = 1) then N / D + 1 else N / D := rfl

/-- `sig` is one of the two integers `lo` and `lo + 1` around `y`: the nearer one, or the even one where both are
as near. -/
structure NearestInteger (y : ℚ) (lo sig : Nat) : Prop where
  lower : (lo : ℚ) ≤ y
  upper : y < lo + 1
  neighbour : sig = lo ∨ sig = lo + 1
  half : 2 * |(sig : ℚ) - y| ≤ 1
  ties : 2 * |(sig : ℚ) - y| = 1 → sig % 2 = 0

/-- The remainder, over the divisor, is the distance from the lower integer. -/
theorem divNearestEven_nearestInteger (N : Nat) {D : Nat} (hD : 0 < D) :
    NearestInteger (N / D) (N / D) (divNearestEven N D) := by
  have hDpos : (0 : ℚ) < D := by exact_mod_cast hD
  have hquot : (N / D : ℚ) = (N / D : Nat) + (N % D : Nat) / D := by
    have hN : (N : ℚ) = (N / D : Nat) * D + (N % D : Nat) := by exact_mod_cast (Nat.div_add_mod' N D).symm
    conv_lhs => rw [hN]
    rw [add_div, mul_div_cancel_right₀ _ hDpos.ne']
  have hr : 0 ≤ ((N % D : Nat) / D : ℚ) := by positivity
  have hr1 : ((N % D : Nat) / D : ℚ) < 1 := (div_lt_one hDpos).2 (by exact_mod_cast Nat.mod_lt N hD)
  have htwice : 2 * ((N % D : Nat) / D : ℚ) = (2 * (N % D) : Nat) / D := by push_cast; ring
  have tie (h : 2 * ((N % D : Nat) / D : ℚ) = 1) : 2 * (N % D) = D := by
    rw [htwice, div_eq_one_iff_eq hDpos.ne'] at h
    exact_mod_cast h
  have lower : ((N / D : Nat) : ℚ) ≤ N / D := by linarith
  have upper : (N / D : ℚ) < (N / D : Nat) + 1 := by linarith
  rw [divNearestEven_eq]
  split
  next h =>
    have hge : 1 ≤ 2 * ((N % D : Nat) / D : ℚ) := by
      rw [htwice, one_le_div hDpos]
      exact_mod_cast (by omega : D ≤ 2 * (N % D))
    have hdist : |((N / D + 1 : Nat) : ℚ) - N / D| = 1 - (N % D : Nat) / D := by
      rw [hquot, abs_of_nonneg] <;> push_cast <;> linarith
    refine ⟨lower, upper, .inr rfl, by rw [hdist]; linarith, fun htie => ?_⟩
    have := tie (by rw [hdist] at htie; linarith)
    omega
  next h =>
    have hle : 2 * ((N % D : Nat) / D : ℚ) ≤ 1 := by
      rw [htwice, div_le_one hDpos]
      exact_mod_cast (by omega : 2 * (N % D) ≤ D)
    have hdist : |((N / D : Nat) : ℚ) - N / D| = (N % D : Nat) / D := by
      rw [hquot, abs_of_nonpos] <;> linarith
    refine ⟨lower, upper, .inl rfl, by rw [hdist]; linarith, fun htie => ?_⟩
    have := tie (by rw [hdist] at htie; linarith)
    omega

/-- The operands of the rounding division make the value over its last place. -/
theorem scaled_quotient (n d : Nat) (e q : ℤ) :
    ((n * 2 ^ (e - q).toNat : Nat) : ℚ) / (d * 2 ^ (q - e).toNat : Nat) = n / d * 2 ^ e / 2 ^ q := by
  rw [mul_div_assoc, ← zpow_sub₀ two_ne_zero, two_zpow_eq_div, neg_sub]
  push_cast
  exact mul_div_mul_comm _ _ _ _

/-- The magnitude before the overflow to infinity: the last place counts in the exponent field, and a significand
that rounds up to `2^53` carries into it. -/
def unboundedMag (n d : Nat) (e : Int) : Nat :=
  (roundExponent n d e + 1074).toNat * 2 ^ 52 +
    divNearestEven (n * 2 ^ (e - roundExponent n d e).toNat) (d * 2 ^ (roundExponent n d e - e).toNat)

theorem roundMag_eq_min (n d : Nat) (e : Int) : roundMag n d e = min (unboundedMag n d e) infMag := rfl

/-- The value over its last place has at most 53 bits, and has 53 unless the last place is the least one. -/
theorem scaled_bounds {n d : Nat} (hn : 0 < n) (hd : 0 < d) (e : Int) :
    (n / d * 2 ^ e / 2 ^ roundExponent n d e : ℚ) < 2 ^ 53 ∧
      (roundExponent n d e = -1074 ∨ (2 : ℚ) ^ 52 ≤ n / d * 2 ^ e / 2 ^ roundExponent n d e) := by
  obtain ⟨hlo, hhi⟩ := floorLog2_bounds hn hd
  constructor
  · have hexp : floorLog2 n d + 1 + e ≤ 53 + roundExponent n d e := by rw [roundExponent]; omega
    rw [div_lt_iff₀ (by positivity)]
    calc (n / d * 2 ^ e : ℚ) < 2 ^ (floorLog2 n d + 1) * 2 ^ e := by gcongr
      _ = 2 ^ (floorLog2 n d + 1 + e) := (zpow_add₀ two_ne_zero _ _).symm
      _ ≤ 2 ^ (53 + roundExponent n d e) := zpow_le_zpow_right₀ one_le_two hexp
      _ = 2 ^ 53 * 2 ^ roundExponent n d e := by rw [zpow_add₀ two_ne_zero]; rfl
  · refine or_iff_not_imp_left.2 fun hne => ?_
    have hexp : 52 + roundExponent n d e = floorLog2 n d + e := by rw [roundExponent] at hne ⊢; omega
    rw [le_div_iff₀ (by positivity)]
    calc (2 ^ 52 * 2 ^ roundExponent n d e : ℚ) = 2 ^ (52 + roundExponent n d e) := by
          rw [zpow_add₀ two_ne_zero]; rfl
      _ = 2 ^ floorLog2 n d * 2 ^ e := by rw [hexp, zpow_add₀ two_ne_zero]
      _ ≤ n / d * 2 ^ e := by gcongr

/-- A significand nearest to the value over its last place makes the nearest magnitude: both integers around the
value lie on one line of the format. -/
theorem NearestInteger.nearestMagnitude {x : ℚ} {q : ℤ} {k lo sig : Nat} (h : NearestInteger (x / 2 ^ q) lo sig)
    (hk : (k : ℤ) - 1074 = q) (hlo52 : k = 0 ∨ 2 ^ 52 ≤ lo) (hlo53 : lo < 2 ^ 53) :
    NearestMagnitude x (k * 2 ^ 52 + sig) := by
  obtain ⟨lower, upper, neighbour, half, ties⟩ := h
  have hqpos : (0 : ℚ) < 2 ^ q := by positivity
  have line {s : Nat} (hs : s = lo ∨ s = lo + 1) : magnitudeValue (k * 2 ^ 52 + s) = s * 2 ^ q := by
    rw [magnitudeValue_eq (k := k) (by omega) (by omega), hk]
    push_cast
    ring
  have hdist : |magnitudeValue (k * 2 ^ 52 + sig) - x| = |(sig : ℚ) - x / 2 ^ q| * 2 ^ q := by
    rw [line neighbour, ← abs_of_pos hqpos, ← abs_mul, abs_of_pos hqpos, sub_mul, div_mul_cancel₀ _ hqpos.ne']
  have hgap : magnitudeValue (k * 2 ^ 52 + lo + 1) - magnitudeValue (k * 2 ^ 52 + lo) = 2 ^ q := by
    rw [add_assoc, line (.inr rfl), line (.inl rfl)]
    push_cast
    ring
  refine nearestMagnitude_of_neighbours (lo := k * 2 ^ 52 + lo) ?_ ?_ (by omega) ?_ ?_
  · rw [line (.inl rfl)]
    exact (le_div_iff₀ hqpos).1 lower
  · rw [add_assoc, line (.inr rfl)]
    push_cast
    exact ((div_lt_iff₀ hqpos).1 upper).le
  · rw [hdist, hgap, ← mul_assoc]
    exact mul_le_of_le_one_left hqpos.le half
  · intro heq
    rw [hdist, hgap, ← mul_assoc, mul_eq_right₀ hqpos.ne'] at heq
    have := ties heq
    omega

/-- Before overflow the magnitude is the nearest one. -/
theorem unboundedMag_nearest {n d : Nat} (hn : 0 < n) (hd : 0 < d) (e : Int) :
    NearestMagnitude (n / d * 2 ^ e) (unboundedMag n d e) := by
  obtain ⟨hlt, hge⟩ := scaled_bounds hn hd e
  have hq : -1074 ≤ roundExponent n d e := le_max_right _ _
  have hsig := divNearestEven_nearestInteger (n * 2 ^ (e - roundExponent n d e).toNat)
    (D := d * 2 ^ (roundExponent n d e - e).toNat) (by positivity)
  rw [scaled_quotient] at hsig
  refine hsig.nearestMagnitude (by omega) ?_ (by exact_mod_cast hsig.lower.trans_lt hlt)
  refine hge.imp (fun h => by omega) fun h => Nat.lt_succ_iff.1 ?_
  exact_mod_cast h.trans_lt hsig.upper

/-! ## Overflow and sign -/

/-- The three magnitudes at the overflow over `u = 2^970`: the largest finite one is `(2^54 - 2) * u`, the next
one `2^54 * u`, and the rule's midpoint lies between them. -/
theorem magnitudeValue_infMag : magnitudeValue infMag = 2 ^ 54 * 2 ^ 970 := by
  have hexp : ((2046 : Nat) : ℤ) - 1074 = 2 + (970 : Nat) := by norm_num
  rw [infMag, magnitudeValue_eq (k := 2046) (by norm_num) (by norm_num), hexp, zpow_add₀ two_ne_zero,
    zpow_natCast, ← mul_assoc]
  norm_num only

theorem magnitudeValue_infMag_sub_one : magnitudeValue (infMag - 1) = (2 ^ 54 - 2) * 2 ^ 970 := by
  have hexp : ((2045 : Nat) : ℤ) - 1074 = 1 + (970 : Nat) := by norm_num
  rw [infMag, magnitudeValue_eq (k := 2045) (by norm_num) (by norm_num), hexp, zpow_add₀ two_ne_zero,
    zpow_natCast, ← mul_assoc]
  norm_num only

theorem overflow_midpoint : (2 : ℚ) ^ 1024 - 2 ^ 970 = (2 ^ 54 - 1) * 2 ^ 970 := by
  rw [sub_one_mul, ← pow_add]

/-- A value whose nearest magnitude is finite lies below the midpoint: at the midpoint itself the tie goes to the
even magnitude, which is infinity. -/
theorem NearestMagnitude.lt_midpoint {x : ℚ} {M : Nat} (h : NearestMagnitude x M) (hM : M < infMag) :
    x < 2 ^ 1024 - 2 ^ 970 := by
  obtain ⟨hnear, htie⟩ := h infMag
  have htop := magnitudeValue_infMag
  have hmax := magnitudeValue_infMag_sub_one
  have hMmax : magnitudeValue M ≤ magnitudeValue (infMag - 1) :=
    magnitudeValue_strictMono.monotone (by omega)
  have hu : (0 : ℚ) < 2 ^ 970 := by positivity
  rw [overflow_midpoint]
  generalize (2 : ℚ) ^ 970 = u at *
  by_contra hx
  have hMx : |magnitudeValue M - x| = x - magnitudeValue M := by
    rw [abs_of_nonpos] <;> linarith
  have hdist : |magnitudeValue infMag - x| = x - magnitudeValue M := by
    refine le_antisymm (abs_le.2 ⟨?_, ?_⟩) (hMx ▸ hnear) <;> linarith
  have heq : magnitudeValue M = magnitudeValue (infMag - 1) := by
    obtain habs | habs := abs_choice (magnitudeValue infMag - x) <;> rw [habs] at hdist <;> linarith
  have heven := htie (hdist.trans hMx.symm) hM.ne'
  rw [magnitudeValue_strictMono.injective heq] at heven
  exact absurd heven (by decide)

/-- Below the midpoint the largest finite magnitude is nearer than any beyond it. -/
theorem NearestMagnitude.lt_infMag {x : ℚ} {M : Nat} (h : NearestMagnitude x M)
    (hx : x < 2 ^ 1024 - 2 ^ 970) : M < infMag := by
  obtain ⟨hnear, -⟩ := h (infMag - 1)
  have htop := magnitudeValue_infMag
  have hmax := magnitudeValue_infMag_sub_one
  have hu : (0 : ℚ) < 2 ^ 970 := by positivity
  rw [overflow_midpoint] at hx
  generalize (2 : ℚ) ^ 970 = u at *
  by_contra hM
  have hMtop : magnitudeValue infMag ≤ magnitudeValue M := magnitudeValue_strictMono.monotone (not_lt.1 hM)
  rw [abs_of_nonneg (by linarith), le_abs] at hnear
  obtain hnear | hnear := hnear <;> linarith

theorem magnitude_withSign_ofNat (neg : Bool) {M : Nat} (h : M ≤ infMag) :
    magnitude (withSign neg (BitVec.ofNat 63 M)) = M := by
  rw [magnitude_withSign, BitVec.toNat_ofNat, Nat.mod_eq_of_lt (h.trans_lt (by decide))]

theorem abs_signFactor_mul_of_pos (neg : Bool) {x : ℚ} (hx : 0 < x) : |signFactor neg * x| = x := by
  rw [abs_signFactor_mul, abs_of_pos hx]

/-- With the sign of the exact result a nearest magnitude that is finite is the nearest value: a value of the
other sign is farther away than its own magnitude, so it never ties. -/
theorem NearestMagnitude.nearestEven_of_lt {x : ℚ} (hx : 0 < x) {M : Nat} (h : NearestMagnitude x M)
    (hM : M < infMag) (neg : Bool) : NearestEven (signFactor neg * x) (withSign neg (BitVec.ofNat 63 M)) := by
  have hmagnitude := magnitude_withSign_ofNat neg hM.le
  have hvalue : value (withSign neg (BitVec.ofNat 63 M)) = signFactor neg * magnitudeValue M := by
    rw [value_eq_magnitudeValue, msb_withSign, hmagnitude, signFactor]
  have habs := abs_signFactor_mul_of_pos neg hx
  have hdist : |value (withSign neg (BitVec.ofNat 63 M)) - signFactor neg * x| = |magnitudeValue M - x| := by
    rw [hvalue, ← mul_sub, abs_signFactor_mul]
  have hfar (c : Word) : |magnitudeValue (magnitude c) - x| ≤ |value c - signFactor neg * x| := by
    rw [← abs_value]
    conv_lhs => rw [← habs]
    exact abs_abs_sub_abs_le_abs_sub _ _
  rw [NearestEven, if_pos (isFinite_iff.2 (hmagnitude.trans_lt hM)), habs, hdist]
  refine ⟨h.lt_midpoint hM, fun c _ => (h _).1.trans (hfar c), fun c _ heq hne => ?_⟩
  rw [getLsbD_zero_eq_false_iff, hmagnitude]
  refine (h (magnitude c)).2 (le_antisymm (heq ▸ hfar c) (h _).1) fun hc => ?_
  have hopposite : value c = -(signFactor neg * magnitudeValue M) := by
    rw [← hvalue]
    refine (abs_eq_abs.1 ?_).resolve_left hne
    rw [abs_value, abs_value, hc, hmagnitude]
  have hsum : |magnitudeValue M + x| = |magnitudeValue M - x| := by
    rw [← heq, hopposite, ← neg_add', ← mul_add, abs_neg, abs_signFactor_mul]
  obtain hsum | hsum := abs_eq_abs.1 hsum
  · linarith
  · refine hne ?_
    rw [hopposite, hvalue, show magnitudeValue M = 0 by linarith, mul_zero, neg_zero]

/-- The nearest magnitude, cut off at infinity, is the exact result rounded to nearest, ties to even. -/
theorem NearestMagnitude.nearestEven {x : ℚ} (hx : 0 < x) {M : Nat} (h : NearestMagnitude x M) (neg : Bool) :
    NearestEven (signFactor neg * x) (withSign neg (BitVec.ofNat 63 (min M infMag))) := by
  obtain hM | hM := lt_or_ge M infMag
  · rw [min_eq_left hM.le]
    exact h.nearestEven_of_lt hx hM neg
  · have hinf : ¬ isFinite (withSign neg (BitVec.ofNat 63 infMag)) = true := by
      rw [isFinite_iff, magnitude_withSign_ofNat neg le_rfl]
      exact lt_irrefl _
    have hsign : decide (signFactor neg * x < 0) = neg := by
      cases neg
      · simpa [signFactor] using hx.le
      · simpa [signFactor] using hx
    rw [min_eq_right hM, NearestEven, if_neg hinf, hsign, abs_signFactor_mul_of_pos neg hx]
    exact ⟨not_lt.1 fun hlt => (h.lt_infMag hlt).not_ge hM, rfl⟩

/-! ## The four operations (R171) -/

theorem round_nearestEven {n d : Nat} (hn : n ≠ 0) (hd : d ≠ 0) (neg : Bool) (e : Int) :
    NearestEven (signFactor neg * (n / d * 2 ^ e)) (round neg n d e) := by
  have hn : 0 < n := Nat.pos_of_ne_zero hn
  have hd : 0 < d := Nat.pos_of_ne_zero hd
  rw [round, roundMag_eq_min]
  exact (unboundedMag_nearest hn hd e).nearestEven (by positivity) neg

theorem value_zero (neg : Bool) : value (zero neg) = 0 := by
  rw [value_eq_magnitudeValue, zero, magnitude_withSign, BitVec.toNat_zero, magnitudeValue_zero, mul_zero]

theorem zero_nearestEven (neg : Bool) : NearestEven 0 (zero neg) := by
  have hfinite : isFinite (zero neg) = true := by cases neg <;> decide
  rw [NearestEven, if_pos hfinite, value_zero, overflow_midpoint, sub_zero, abs_zero]
  refine ⟨mul_pos (by norm_num) (by positivity), fun c _ => abs_nonneg _, fun c _ hc hne => absurd ?_ hne⟩
  simpa using hc

theorem signFactor_xor (s t : Bool) : signFactor (s ^^ t) = signFactor s * signFactor t := by
  cases s <;> cases t <;> simp [signFactor]

theorem signFactor_mul_self (s : Bool) : signFactor s * signFactor s = 1 := by
  cases s <;> simp [signFactor]

theorem signFactor_ne_zero (s : Bool) : signFactor s ≠ 0 := by
  cases s <;> simp [signFactor]

theorem fmul_nearestEven {a b : Word} (ha : isFinite a = true) (hb : isFinite b = true) :
    NearestEven (value a * value b) (fmul a b) := by
  obtain ⟨m, e, hua, hva⟩ := unpack_of_isFinite ha
  obtain ⟨n, f, hub, hvb⟩ := unpack_of_isFinite hb
  have hexact : value a * value b = signFactor (a.msb ^^ b.msb) * ((m * n : Nat) / (1 : Nat) * 2 ^ (e + f)) := by
    rw [hva, hvb, signFactor_xor, zpow_add₀ two_ne_zero]
    push_cast
    ring
  have hmul : fmul a b =
      if m * n = 0 then zero (a.msb ^^ b.msb) else round (a.msb ^^ b.msb) (m * n) 1 (e + f) := by
    rw [fmul, hua, hub]
  rw [hexact, hmul]
  split
  next h => simpa [h] using zero_nearestEven _
  next h => exact round_nearestEven h one_ne_zero _ _

theorem fdiv_nearestEven {a b : Word} (ha : isFinite a = true) (hb : isFinite b = true) (hne : value b ≠ 0) :
    NearestEven (value a / value b) (fdiv a b) := by
  obtain ⟨m, e, hua, hva⟩ := unpack_of_isFinite ha
  obtain ⟨n, f, hub, hvb⟩ := unpack_of_isFinite hb
  have hn : n ≠ 0 := by
    rintro rfl
    exact hne (by rw [hvb, Nat.cast_zero, zero_mul, mul_zero])
  have hexact : value a / value b = signFactor (a.msb ^^ b.msb) * (m / n * 2 ^ (e - f)) := by
    have hsign : signFactor a.msb / signFactor b.msb = signFactor (a.msb ^^ b.msb) := by
      rw [signFactor_xor, div_eq_iff (signFactor_ne_zero _), mul_assoc, signFactor_mul_self, mul_one]
    rw [hva, hvb, mul_div_mul_comm, hsign, mul_div_mul_comm, zpow_sub₀ two_ne_zero]
  have hdiv : fdiv a b = if m = 0 then zero (a.msb ^^ b.msb) else round (a.msb ^^ b.msb) m n (e - f) := by
    rw [fdiv, hua, hub]
    exact if_neg hn
  rw [hexact, hdiv]
  split
  next h => simpa [h] using zero_nearestEven _
  next h => exact round_nearestEven h hn _ _

theorem signed_cast (neg : Bool) (m : Nat) : (signed neg m : ℚ) = signFactor neg * m := by
  cases neg <;> simp [signed, signFactor]

theorem signFactor_mul_natAbs (x : ℤ) : signFactor (decide (x < 0)) * x.natAbs = x := by
  obtain h | h := lt_or_ge x 0
  · rw [decide_eq_true h, Nat.cast_natAbs, abs_of_neg h]
    simp [signFactor]
  · rw [decide_eq_false (not_lt.2 h), Nat.cast_natAbs, abs_of_nonneg h]
    simp [signFactor]

/-- A significand shifted to a smaller exponent keeps its value. -/
theorem shifted_mul_two_zpow (m : Nat) {e q : ℤ} (h : q ≤ e) :
    ((m * 2 ^ (e - q).toNat : Nat) : ℚ) * 2 ^ q = m * 2 ^ e := by
  have hexp : ((e - q).toNat : ℤ) + q = e := by omega
  rw [Nat.cast_mul, Nat.cast_pow, Nat.cast_ofNat, mul_assoc, ← zpow_natCast, ← zpow_add₀ two_ne_zero, hexp]

/-- The integer sum over the smaller exponent is the exact sum. -/
theorem addFinite_nearestEven (s : Bool) (m : Nat) (e : Int) (t : Bool) (n : Nat) (f : Int) :
    NearestEven (signFactor s * (m * 2 ^ e) + signFactor t * (n * 2 ^ f)) (addFinite s m e t n f) := by
  have hexact : signFactor s * (m * 2 ^ e) + signFactor t * (n * 2 ^ f) =
      ((signed s (m * 2 ^ (e - min e f).toNat) + signed t (n * 2 ^ (f - min e f).toNat) : ℤ) : ℚ) *
        2 ^ min e f := by
    rw [Int.cast_add, signed_cast, signed_cast, add_mul, mul_assoc, mul_assoc,
      shifted_mul_two_zpow m (min_le_left e f), shifted_mul_two_zpow n (min_le_right e f)]
  rw [hexact, addFinite]
  generalize signed s (m * 2 ^ (e - min e f).toNat) + signed t (n * 2 ^ (f - min e f).toNat) = x
  split
  next h => simpa [h] using zero_nearestEven _
  next h =>
    have hround := round_nearestEven (Int.natAbs_ne_zero.2 h) one_ne_zero (decide (x < 0)) (min e f)
    rwa [Nat.cast_one, div_one, ← mul_assoc, signFactor_mul_natAbs] at hround

theorem fadd_nearestEven {a b : Word} (ha : isFinite a = true) (hb : isFinite b = true) :
    NearestEven (value a + value b) (fadd a b) := by
  obtain ⟨m, e, hua, hva⟩ := unpack_of_isFinite ha
  obtain ⟨n, f, hub, hvb⟩ := unpack_of_isFinite hb
  rw [hva, hvb, fadd, hua, hub]
  exact addFinite_nearestEven _ _ _ _ _ _

theorem fsub_nearestEven {a b : Word} (ha : isFinite a = true) (hb : isFinite b = true) :
    NearestEven (value a - value b) (fsub a b) := by
  rw [fsub, sub_eq_add_neg, ← value_fneg]
  exact fadd_nearestEven ha ((isFinite_fneg b).trans hb)

/-- Settles O35: each operation computes its exact result over the integers and rounds it once. -/
theorem operationsRoundToNearestEven : Obligations.OperationsRoundToNearestEven := fun _ _ ha hb =>
  ⟨fadd_nearestEven ha hb, fsub_nearestEven ha hb, fmul_nearestEven ha hb, fdiv_nearestEven ha hb⟩

/-! ## The candidate (sections 3 and 4) -/

theorem roundMag_le_infMag (n d : Nat) (e : Int) : roundMag n d e ≤ infMag := min_le_right _ _

theorem isNaN_round (neg : Bool) (n d : Nat) (e : Int) : isNaN (round neg n d e) = false := by
  rw [isNaN_eq_false_iff, round, magnitude_withSign, BitVec.toNat_ofNat]
  exact (Nat.mod_le _ _).trans (roundMag_le_infMag n d e)

theorem isNaN_zero (neg : Bool) : isNaN (zero neg) = false := by
  cases neg <;> decide

/-- A product of finite operands is no NaN, and its sign is that of the operands (R171). -/
theorem fmul_sign {a b : Word} (ha : isFinite a = true) (hb : isFinite b = true) :
    isNaN (fmul a b) = false ∧ (fmul a b).msb = (a.msb ^^ b.msb) := by
  obtain ⟨m, e, hua, -⟩ := unpack_of_isFinite ha
  obtain ⟨n, f, hub, -⟩ := unpack_of_isFinite hb
  rw [fmul, hua, hub]
  dsimp only
  split
  · exact ⟨isNaN_zero _, msb_withSign _ _⟩
  · exact ⟨isNaN_round _ _ _ _, msb_withSign _ _⟩

theorem isNaN_sgn (sign : Bool) (a : Word) : isNaN (sgn sign a) = isNaN a := by
  cases sign
  · rfl
  · exact isNaN_fneg a

/-- Settles O45: the candidate is a product of two finite operands with sign bit 0. -/
theorem candidateNeverNegativeNorNaN : Obligations.CandidateNeverNegativeNorNaN := by
  intro width v hwidth
  have hw := hwidth (layerIndex v)
  rw [finiteNonneg, Bool.and_eq_true, Bool.not_eq_true'] at hw
  obtain ⟨hfinite, hsign⟩ := hw
  obtain ⟨hnan, hmsb⟩ := fmul_sign (u32ToF64_exact (mantissa v)).2 hfinite
  refine ⟨hnan, ?_, fun sign => (isNaN_sgn sign _).trans hnan⟩
  rw [candidate, hmsb, hsign, u32ToF64, ofScaled_msb]
  rfl

/-! ## The exponential tail (section 3) -/

theorem isNaN_of_isFinite {a : Word} (h : isFinite a = true) : isNaN a = false := by
  rw [isNaN_eq_false_iff]
  exact (isFinite_iff.1 h).le

/-- `flt` and `fge` on finite patterns compare the values (R173). -/
theorem flt_iff_value {a b : Word} (ha : isFinite a = true) (hb : isFinite b = true) :
    flt a b = true ↔ value a < value b := by
  rw [flt_eq_true, value_eq_keyValue, value_eq_keyValue, keyValue_strictMono.lt_iff_lt,
    and_iff_right (isNaN_of_isFinite ha), and_iff_right (isNaN_of_isFinite hb)]

theorem fge_iff_value {a b : Word} (ha : isFinite a = true) (hb : isFinite b = true) :
    fge a b = true ↔ value b ≤ value a := by
  rw [fge_eq_true, value_eq_keyValue, value_eq_keyValue, keyValue_strictMono.le_iff_le,
    and_iff_right (isNaN_of_isFinite ha), and_iff_right (isNaN_of_isFinite hb)]

theorem isFinite_zero (neg : Bool) : isFinite (zero neg) = true := by
  cases neg <;> decide

theorem value_one : value one = 1 := by
  have hexp : exponentField one = 1023 := by decide
  have hfrac : fractionField one = 0 := by decide
  have hsign : one.msb = false := by decide
  norm_num [value, hexp, hfrac, hsign]

/-- `U_OPEN` is an operand LN_NEG speaks of (R177, R178). -/
theorem uOpen_between (v : Word) : flt (zero false) (uOpen v) = true ∧ flt (uOpen v) one = true := by
  obtain ⟨hlo, hhi⟩ := uOpen_range v
  have hfin := (uOpen_exact v).2
  rw [flt_iff_value (isFinite_zero _) hfin, flt_iff_value hfin (by decide), value_zero, value_one]
  exact ⟨hlo.trans_lt' (by norm_num), hhi.trans_lt (by norm_num)⟩

/-- Every finite value is at most the largest one. -/
theorem abs_value_le {a : Word} (h : isFinite a = true) : |value a| ≤ (2 ^ 54 - 2) * 2 ^ 970 := by
  have hlt := isFinite_iff.1 h
  rw [abs_value, ← magnitudeValue_infMag_sub_one]
  exact magnitudeValue_strictMono.monotone (by omega)

/-- A result rounded to nearest is on the same side of every number of the format as the exact result. -/
theorem NearestEven.le_value {x : ℚ} {r c : Word} (h : NearestEven x r) (hr : isFinite r = true)
    (hc : isFinite c = true) (hle : value c ≤ x) : value c ≤ value r := by
  rw [NearestEven, if_pos hr] at h
  obtain ⟨-, hnear, -⟩ := h
  have hdist := hnear c hc
  rw [abs_of_nonpos (by linarith : value c - x ≤ 0), abs_le] at hdist
  linarith

theorem abs_value_baseStripExp_lt : |value baseStripExp| < 8 := by
  have hexp : exponentField baseStripExp = 1025 := by decide
  have hfrac : fractionField baseStripExp = 0xEC9D9297EBB83 := by decide
  have hsign : baseStripExp.msb = false := by decide
  norm_num [value, hexp, hfrac, hsign, abs_of_pos]

/-- A difference of `RE` and a finite number stays below the midpoint of the overflow. -/
theorem abs_baseStripExp_sub_lt {a : Word} (h : isFinite a = true) :
    |value baseStripExp - value a| < 2 ^ 1024 - 2 ^ 970 := by
  have hu : (8 : ℚ) < 2 ^ 970 := by
    rw [show (8 : ℚ) = 2 ^ 3 by norm_num]
    exact pow_lt_pow_right₀ one_lt_two (by decide)
  have hsum := abs_sub (value baseStripExp) (value a)
  have hRE := abs_value_baseStripExp_lt
  have ha := abs_value_le h
  rw [overflow_midpoint]
  generalize (2 : ℚ) ^ 970 = u at *
  linarith

/-- Settles O46: the exact difference of `RE` and a negative finite number is above `RE` and rounds to no
infinity. -/
theorem expTailNotBelowBaseStrip : Obligations.ExpTailNotBelowBaseStrip := by
  intro ln64 v hln
  obtain ⟨hzero, hone⟩ := uOpen_between v
  obtain ⟨hfin, hneg⟩ := hln (uOpen v) hzero hone
  rw [flt_iff_value hfin (isFinite_zero _), value_zero] at hneg
  have hRE : isFinite baseStripExp = true := by decide
  have hround := fsub_nearestEven hRE hfin
  have hresult : isFinite (fsub baseStripExp (ln64 (uOpen v))) = true := by
    by_contra hinf
    rw [NearestEven, if_neg hinf] at hround
    exact hround.1.not_gt (abs_baseStripExp_sub_lt hfin)
  refine ⟨hresult, (fge_iff_value hresult hRE).2 (hround.le_value hresult hRE ?_)⟩
  linarith

end Sys2Proof.Machine
